-- ==== Sys2Proof/Word.lean ====
section
/-! DEFINITION. The word types of the block's wires: one byte, one character lane, one value lane, one command word. -/

namespace Sys2Proof

/-- One byte of the decoder's internal byte sequence (10_state.md R28). -/
abbrev Byte := BitVec 8

/-- One character as a character lane carries it: an 8-bit code, CHARW = 8 (00_scope.md R7, 30_encoding.md R66, R68).
DESIGN CHOICE of the spec (D9; log entry 3): the two binary digits are two of the 256 codes, every other code is non-binary. -/
abbrev Chr := BitVec 8

/-- A FloatValue as the value lanes carry it: a double-precision bit pattern at both precisions (10_state.md R27). -/
abbrev Value := BitVec 64

/-- The command word, format C (30_encoding.md R61). -/
abbrev Cmd := BitVec 9

end Sys2Proof
end

