-- ==== Sys2Proof/Config.lean ====
section
/-! DEFINITION. What the spec leaves to a realisation: the parameters of its lane binding, at the values its rules and
vectors use, and the free values of the lanes it leaves unspecified. -/

namespace Sys2Proof.Config

/-- CH0, the code of '0' (00_scope.md R7, 30_encoding.md R68; the spec's decision D9 and its general knowledge G1).
PRESUMED by the spec, unsafe for a realisation with other codes: log entry 3. -/
def ch0 : Chr := 0x30#8

/-- CH1, the code of '1' (as `ch0`; log entry 3). -/
def ch1 : Chr := 0x31#8

/-- STATUS code of outcome OK (00_scope.md R7, 60_exceptions.md R192; the spec's decision D6, log entry 3). -/
def statusOk : BitVec 2 := 0#2

/-- STATUS code of InvalidBitString (60_exceptions.md R190, R192; log entry 3). -/
def statusInvalidBitString : BitVec 2 := 1#2

/-- STATUS code of PrecisionMismatch (60_exceptions.md R191, R192; log entry 3). -/
def statusPrecisionMismatch : BitVec 2 := 2#2

/-! ### Free values

Nothing constrains these constants. The first argument is the model's own counter `State.freeCount`, so each step meets
fresh values. They stand on the result lanes of a failed operation and of the operations not selected, which hold
"any value" (60_exceptions.md R194, 30_encoding.md R70, 93_implementation_defined.md U9). Safe: log entry 2. -/

/-- What `str_out_len` holds when it carries no result. -/
opaque freeStrOutLen : Nat → BitVec 8

/-- What character lane `lane` of the output string holds when it carries no result. -/
opaque freeStrOutChr : (step lane : Nat) → Chr

/-- What `val_out` holds when it carries no result. -/
opaque freeValOut : Nat → Value

/-- What `sign_out` holds when it carries no result. -/
opaque freeSignOut : Nat → BitVec 1

/-- What `exp_out` holds when it carries no result. -/
opaque freeExpOut : Nat → BitVec 11

/-- What `man_out` holds when it carries no result. -/
opaque freeManOut : Nat → BitVec 52

/-- What `eunb_out` holds when it carries no result. -/
opaque freeEunbOut : Nat → BitVec 12

/-- What `raw_out` holds when it carries no result. -/
opaque freeRawOut : Nat → BitVec 64

/-- The character at an index above 63 of an input string whose stated length is above 64: no lane carries it
(30_encoding.md R68). Safe: log entry 4. -/
opaque uncarriedChr : Nat → Chr

end Sys2Proof.Config
end

