-- ==== Sys2Proof/Syntax.lean ====
section
/-! DEFINITION. The block's operations as syntax: precisions, units, the eight instructions of the opcode table, the
command word's two fields, and the two typed failures. -/

namespace Sys2Proof

/-- The enumerated Precision (00_scope.md R12, 10_state.md R24). -/
inductive Precision where
  | single
  | double
deriving DecidableEq, Repr

/-- The four units, one operation each (30_encoding.md R62). -/
inductive Op where
  | enc
  | dec
  | dcp
  | asm
deriving DecidableEq, Repr

/-- The two failures of the block, a complete list (60_exceptions.md R190, R191, R193).
Neither carries a value: no position, no cause, no echoed operand. -/
inductive Failure where
  | invalidBitString
  | precisionMismatch
deriving DecidableEq, Repr

/-- The eight legal operations, one constructor per row of spec/opcode_table.json (30_encoding.md R65).
No constructor has an argument: a command word carries no operand, every operand comes on a lane (R61, R69). -/
inductive Instr where
  | enc32
  | enc64
  | dec32
  | dec64
  | dcp32
  | dcp64
  | asm32
  | asm64
deriving DecidableEq, Repr

/-- The unit an instruction selects (30_encoding.md R65). -/
def Instr.op : Instr → Op
  | .enc32 => .enc
  | .enc64 => .enc
  | .dec32 => .dec
  | .dec64 => .dec
  | .dcp32 => .dcp
  | .dcp64 => .dcp
  | .asm32 => .asm
  | .asm64 => .asm

/-- The precision an instruction runs at (30_encoding.md R65). -/
def Instr.precision : Instr → Precision
  | .enc32 => .single
  | .enc64 => .double
  | .dec32 => .single
  | .dec64 => .double
  | .dcp32 => .single
  | .dcp64 => .double
  | .asm32 => .single
  | .asm64 => .double

/-- The instruction of a unit at a precision. -/
def Instr.of : Op → Precision → Instr
  | .enc, .single => .enc32
  | .enc, .double => .enc64
  | .dec, .single => .dec32
  | .dec, .double => .dec64
  | .dcp, .single => .dcp32
  | .dcp, .double => .dcp64
  | .asm, .single => .asm32
  | .asm, .double => .asm64

/-- A command as written, its precision still the number a host presents: `DEC.16` is a command, and no instruction
(30_encoding.md R63, R73). -/
structure Command where
  op   : Op
  prec : BitVec 7
deriving DecidableEq, Repr

end Sys2Proof
end

