-- ==== Sys2Proof/WellFormed.lean ====
section
/-! DEFINITION. The one check a command can fail: its precision is one of the two supported widths. -/

namespace Sys2Proof

/-- A command is well formed when its `prec` field is 32 or 64 (30_encoding.md R63, R71).
It is the only check: no `op` value is illegal and a command has no operand field (R69, R71). -/
def Command.wf (c : Command) : Bool := c.prec == 32#7 || c.prec == 64#7

/-- The command an instruction is written as: its unit and the width of its precision (30_encoding.md R65). -/
def Instr.command (i : Instr) : Command :=
  { op := i.op
    prec := match i.precision with
      | .single => 32#7
      | .double => 64#7 }

/-- An instruction is well formed when its command is. -/
def Instr.wf (i : Instr) : Bool := i.command.wf

end Sys2Proof
end

