-- ==== Sys2Proof/Decode.lean ====
section
/-! DEFINITION. The decoder of command words, total on all 512 of them, and after it the encoder.
30_encoding.md R61 to R65, R71, R72. -/

namespace Sys2Proof

/-- The `op` field, `cmd[8:7]` (30_encoding.md R61). -/
def cmdOp (cmd : Cmd) : BitVec 2 := cmd.extractLsb' 7 2

/-- The `prec` field, `cmd[6:0]` (30_encoding.md R61). -/
def cmdPrec (cmd : Cmd) : BitVec 7 := cmd.extractLsb' 0 7

/-- The unit of an `op` value; all four values are used (30_encoding.md R62). -/
def opOf (op : BitVec 2) : Op :=
  if op = 0b00#2 then .enc
  else if op = 0b01#2 then .dec
  else if op = 0b10#2 then .dcp
  else .asm

/-- `PrecOf`: the number 32 selects Single, 64 selects Double, the other 126 values raise PrecisionMismatch
(30_encoding.md R63, R64). -/
def precOf (prec : BitVec 7) : Except Failure Precision :=
  if prec = 32#7 then .ok .single
  else if prec = 64#7 then .ok .double
  else .error .precisionMismatch

/-- The instruction of a command word, or the failure by which the word is rejected (30_encoding.md R70, R71).
The precision is resolved first, whatever the `op` field. -/
def decode (cmd : Cmd) : Except Failure Instr :=
  match precOf (cmdPrec cmd) with
  | .error f => .error f
  | .ok p => .ok (Instr.of (opOf (cmdOp cmd)) p)

/-- The fields of a command word, with no check (30_encoding.md R61). -/
def parseCommand (cmd : Cmd) : Command := { op := opOf (cmdOp cmd), prec := cmdPrec cmd }

/-- The instruction the decoder reads from the bits `w` of an `nbits`-bit table row.
A command word is nine bits and lies in the low nine (30_encoding.md R61, R72): a `w` that does not fit `nbits` bits, or has a
bit above bit 8, is no command word (DESIGN CHOICE, safe: log entry 11). -/
def decodeTableWord (nbits w : Nat) : Option Instr :=
  if w < 2 ^ nbits ∧ w < 2 ^ 9 then
    match decode (BitVec.ofNat 9 w) with
    | .ok i => some i
    | .error _ => none
  else none

/-! ### The encoder -/

/-- The `op` value of a unit (30_encoding.md R62). -/
def Op.code : Op → BitVec 2
  | .enc => 0b00#2
  | .dec => 0b01#2
  | .dcp => 0b10#2
  | .asm => 0b11#2

/-- The word of a command: `op` above `prec` (30_encoding.md R61). -/
def Command.encode (c : Command) : Cmd := c.op.code ++ c.prec

/-- The command word of an instruction (30_encoding.md R65). -/
def encode (i : Instr) : Cmd := i.command.encode

/-! ### The opcode table as the spec prints it -/

/-- One row of 30_encoding.md R65: an instruction and the word it matches, all nine bits compared. -/
structure TableRow where
  instr   : Instr
  pattern : Cmd
  mask    : Cmd
deriving DecidableEq, Repr

/-- The eight legal command words (30_encoding.md R65). -/
def opcodeTable : List TableRow :=
  [ ⟨.enc32, 0x020#9, 0x1FF#9⟩, ⟨.enc64, 0x040#9, 0x1FF#9⟩,
    ⟨.dec32, 0x0A0#9, 0x1FF#9⟩, ⟨.dec64, 0x0C0#9, 0x1FF#9⟩,
    ⟨.dcp32, 0x120#9, 0x1FF#9⟩, ⟨.dcp64, 0x140#9, 0x1FF#9⟩,
    ⟨.asm32, 0x1A0#9, 0x1FF#9⟩, ⟨.asm64, 0x1C0#9, 0x1FF#9⟩ ]

/-- A row matches a word when they agree under the row's mask. -/
def TableRow.matchesWord (r : TableRow) (cmd : Cmd) : Bool := cmd &&& r.mask == r.pattern

/-- The decoder "written from this table alone" (30_encoding.md R65). `Laws/Decode.lean` proves it equal to `decode`. -/
def decodeByTable (cmd : Cmd) : Option Instr :=
  (opcodeTable.find? fun r => r.matchesWord cmd).map TableRow.instr

end Sys2Proof
end

