-- ==== Sys2Proof/Machine/State.lean ====
section
/-! DEFINITION. The machine's state: the lanes of the block's interface. The block itself keeps nothing between operations
(10_state.md R20 to R23, R30 to R34): what a step changes is what stands on its output lanes. -/

namespace Sys2Proof.Machine

/-- The input lanes, what the host presents (30_encoding.md R66). -/
structure Inputs where
  /-- `cmd`, the command word. -/
  cmd      : Cmd
  /-- `val_in`, read by ENC. -/
  valIn    : Value
  /-- `str_in_len`, the length of the input string, read by DEC. -/
  strInLen : BitVec 8
  /-- `str_in_chr[0..63]`, read by DEC. -/
  strInChr : Vector Chr 64
  /-- `raw_in`, read by DCP. -/
  rawIn    : BitVec 64
  /-- `sign_in`, read by ASM. -/
  signIn   : BitVec 1
  /-- `exp_in`, read by ASM. -/
  expIn    : BitVec 11
  /-- `man_in`, read by ASM. -/
  manIn    : BitVec 52
deriving DecidableEq, Repr

/-- The output lanes (30_encoding.md R66). -/
structure Outputs where
  /-- `status`, the outcome code of the present operation (60_exceptions.md R192). -/
  status    : BitVec 2
  /-- `str_out_len`, a result of ENC. -/
  strOutLen : BitVec 8
  /-- `str_out_chr[0..63]`, a result of ENC. -/
  strOutChr : Vector Chr 64
  /-- `val_out`, the result of DEC. -/
  valOut    : Value
  /-- `sign_out`, a result of DCP. -/
  signOut   : BitVec 1
  /-- `exp_out`, a result of DCP. -/
  expOut    : BitVec 11
  /-- `man_out`, a result of DCP. -/
  manOut    : BitVec 52
  /-- `eunb_out`, the signed exponent, a result of DCP. -/
  eunbOut   : BitVec 12
  /-- `raw_out`, the result of ASM. -/
  rawOut    : BitVec 64
deriving DecidableEq, Repr

/-- The interface of one instance of the block. -/
structure State where
  /-- The input lanes. -/
  inp       : Inputs
  /-- The output lanes. -/
  out       : Outputs
  /-- The MODEL's own field: how many free values each lane has drawn (log entry 2). No lane, no result and no outcome
  of the spec's depends on it. -/
  freeCount : Nat
deriving DecidableEq, Repr

/-- Why the machine would stop. NO CONSTRUCTOR: no input stops the block. Every operation completes for every input
(70_reset_and_hazards.md R227), and its two failures are outcomes on the `status` lane after which the host goes on
(60_exceptions.md R194, R196). Nothing raises a fault: neither safe nor unsafe. -/
inductive Fault
deriving DecidableEq, Repr

/-- Why the model would give an instruction no meaning. -/
inductive Refusal where
  /-- An instruction with no meaning yet. Raised by arms of `exec` alone, and by none of them now. Safe. -/
  | notModelled (mnemonic : String)
deriving DecidableEq, Repr

/-- The input lanes at reset. The spec states no value: a host has presented nothing (70_reset_and_hazards.md R220).
DESIGN CHOICE, unsafe: every lane zero (log entry 5). -/
def Inputs.reset : Inputs :=
  { cmd := 0#9, valIn := 0#64, strInLen := 0#8, strInChr := Vector.replicate 64 0#8
    rawIn := 0#64, signIn := 0#1, expIn := 0#11, manIn := 0#52 }

/-- The output lanes at reset. "The block's outputs are at all times the function of its present inputs" (10_state.md R34):
the command word 0 of `Inputs.reset` has precision 0, so `status` says PrecisionMismatch (DEDUCED, log entry 5) and no
result lane carries anything. DESIGN CHOICE, unsafe: those lanes are zero (log entry 5). -/
def Outputs.reset : Outputs :=
  { status := Config.statusPrecisionMismatch, strOutLen := 0#8, strOutChr := Vector.replicate 64 0#8, valOut := 0#64
    signOut := 0#1, expOut := 0#11, manOut := 0#52, eunbOut := 0#12, rawOut := 0#64 }

/-- The interface right after power-up or reset. The block has no state to reset (10_state.md R34,
70_reset_and_hazards.md R220); the lanes' values are those of log entry 5, and `freeCount` starts at 0 (log entry 2). -/
def State.reset : State :=
  { inp := Inputs.reset, out := Outputs.reset, freeCount := 0 }

end Sys2Proof.Machine
end

