-- ==== Sys2Proof/Machine/Flags.lean ====
section
/-! DEFINITION. The `status` lane. The block has no flag and no condition code (10_state.md R30, 41_encoder.md R133): the
outcome of the present operation is the only thing it indicates. -/

namespace Sys2Proof.Machine

/-- The status code of a failure (60_exceptions.md R190 to R192). -/
def failureCode : Failure → BitVec 2
  | .invalidBitString => Config.statusInvalidBitString
  | .precisionMismatch => Config.statusPrecisionMismatch

end Sys2Proof.Machine
end

