-- ==== Sys2Proof/Machine/Layout.lean ====
section
/-! DEFINITION. The FieldLayout and the two operations built on it: decomposition into fields and its inverse.
40_fields.md R90, R91, R93, R97, R100, R103. -/

namespace Sys2Proof.Machine

/-- A row of the FieldLayout (40_fields.md R90). The sign width is 1 in every row. -/
structure Layout where
  w    : Nat
  ew   : Nat
  mw   : Nat
  bias : Nat
deriving DecidableEq, Repr

/-- `Layout(p)`, the one shared layout table: two rows and no third (40_fields.md R90, 00_scope.md R6). -/
abbrev layout : Precision → Layout
  | .single => { w := 32, ew := 8, mw := 23, bias := 127 }
  | .double => { w := 64, ew := 11, mw := 52, bias := 1023 }

/-- W, the full width of a bit pattern and the length of a BitString. -/
abbrev widthOf (p : Precision) : Nat := (layout p).w

/-- EW, the width of the exponent field. -/
abbrev expWidthOf (p : Precision) : Nat := (layout p).ew

/-- MW, the width of the mantissa field. -/
abbrev manWidthOf (p : Precision) : Nat := (layout p).mw

/-- BIAS, the exponent bias. -/
abbrev biasOf (p : Precision) : Nat := (layout p).bias

/-- L = W / 8, the length of the byte sequence (40_fields.md R90). -/
abbrev byteLenOf (p : Precision) : Nat := widthOf p / 8

/-- EMAX = 2^EW - 1, the all-ones exponent field (40_fields.md R90). -/
def expMaxOf (p : Precision) : Nat := 2 ^ expWidthOf p - 1

/-- RawBits, and the bit pattern of a value, at precision p (00_scope.md R12, 10_state.md R26). -/
abbrev RawBits (p : Precision) := BitVec (widthOf p)

/-- The field triple (10_state.md R29). -/
structure FieldTriple (p : Precision) where
  sign     : BitVec 1
  exponent : BitVec (expWidthOf p)
  mantissa : BitVec (manWidthOf p)
deriving DecidableEq, Repr

/-- `Fields(raw, p)`: `raw[W-1]`, `raw[W-2 : MW]`, `raw[MW-1 : 0]`, a pure selection of bits (40_fields.md R91, R93). -/
def fields (p : Precision) (raw : RawBits p) : FieldTriple p :=
  { sign := raw.extractLsb' (widthOf p - 1) 1
    exponent := raw.extractLsb' (manWidthOf p) (expWidthOf p)
    mantissa := raw.extractLsb' 0 (manWidthOf p) }

/-- The three widths tile the pattern: W = 1 + EW + MW (00_scope.md R6). -/
theorem widths_tile (p : Precision) : 1 + expWidthOf p + manWidthOf p = widthOf p := by
  cases p <;> rfl

/-- `Join(sign, exponent, mantissa, p)`: the three fields side by side, the sign highest (40_fields.md R97). -/
def join (p : Precision) (t : FieldTriple p) : RawBits p :=
  (t.sign ++ t.exponent ++ t.mantissa).cast (widths_tile p)

/-- The signed exponent `trunc_12(exponent - BIAS)`, applied to every stored exponent alike (40_fields.md R100). -/
def signedExponent (p : Precision) (exponent : BitVec (expWidthOf p)) : BitVec 12 :=
  BitVec.ofInt 12 ((exponent.toNat : Int) - (biasOf p : Int))

/-- The five classes of a bit pattern (40_fields.md R103). -/
inductive PatternClass where
  | zero
  | subnormal
  | normal
  | infinity
  | nan
deriving DecidableEq, Repr

/-- The class of a field triple: by exponent 0, exponent EMAX or neither, and by mantissa 0 or not (40_fields.md R103;
PRESUMED by the spec from IEEE 754, its G2; log entry 9). -/
def FieldTriple.classify {p : Precision} (t : FieldTriple p) : PatternClass :=
  if t.exponent.toNat = 0 then
    if t.mantissa.toNat = 0 then .zero else .subnormal
  else if t.exponent.toNat = expMaxOf p then
    if t.mantissa.toNat = 0 then .infinity else .nan
  else .normal

/-- The class of a pattern, by its fields (40_fields.md R103). -/
def classify (p : Precision) (raw : RawBits p) : PatternClass := (fields p raw).classify

/-- Finite means zero, subnormal or normal (40_fields.md R103). -/
def PatternClass.finite : PatternClass → Bool
  | .zero => true
  | .subnormal => true
  | .normal => true
  | .infinity => false
  | .nan => false

end Sys2Proof.Machine
end

