-- ==== Sys2Proof/Machine/Operands.lean ====
section
/-! DEFINITION. Operand assembly: the operands an operation reads off the input lanes at its precision.
30_encoding.md R67, R68, R69. -/

namespace Sys2Proof.Machine

/-- The string a length lane and 64 character lanes state (30_encoding.md R68): lanes at the stated length and above are
ignored; characters at index 64 and above are carried by no lane and are free (log entry 4). -/
def laneString (len : BitVec 8) (chr : Vector Chr 64) : List Chr :=
  (List.range len.toNat).map fun i => if h : i < 64 then chr[i] else Config.uncarriedChr i

/-- ENC's operand, `val_in`, 64 bits at both precisions (30_encoding.md R67). -/
def readValue (i : Inputs) : Value := i.valIn

/-- DEC's operand, the input string (30_encoding.md R68). -/
def readString (i : Inputs) : List Chr := laneString i.strInLen i.strInChr

/-- DCP's operand, `raw_in[W-1:0]`: the bits above are not part of it (30_encoding.md R67, 40_fields.md R94). -/
def readRaw (p : Precision) (i : Inputs) : RawBits p := i.rawIn.setWidth (widthOf p)

/-- ASM's operands, `sign_in`, `exp_in[EW-1:0]`, `man_in[MW-1:0]`: the bits above are not part of them
(30_encoding.md R67, 40_fields.md R98). -/
def readFields (p : Precision) (i : Inputs) : FieldTriple p :=
  { sign := i.signIn
    exponent := i.expIn.setWidth (expWidthOf p)
    mantissa := i.manIn.setWidth (manWidthOf p) }

end Sys2Proof.Machine
end

