-- ==== Sys2Proof/Machine/Ops.lean ====
section
/-! DEFINITION. What an operation does to the lanes: completing with a result, ending with a failure, and what the host does
between operations. 30_encoding.md R66, R67, R70, 60_exceptions.md R194, 70_reset_and_hazards.md R223. -/

namespace Sys2Proof.Machine

/-- The output lanes when no operation has driven a result: every result lane holds a free value
(60_exceptions.md R194, 30_encoding.md R70, 93_implementation_defined.md U9; log entry 2). -/
def Outputs.undriven (status : BitVec 2) (n : Nat) : Outputs :=
  { status := status
    strOutLen := Config.freeStrOutLen n
    strOutChr := Vector.ofFn fun lane => Config.freeStrOutChr n lane.val
    valOut := Config.freeValOut n
    signOut := Config.freeSignOut n
    expOut := Config.freeExpOut n
    manOut := Config.freeManOut n
    eunbOut := Config.freeEunbOut n
    rawOut := Config.freeRawOut n }

/-- The state after an operation whose output lanes are `out`: the inputs are the host's and stay (R223), and the free
values the step drew are used up. -/
def State.settle (s : State) (out : Outputs) : State :=
  { inp := s.inp, out := out, freeCount := s.freeCount + 1 }

/-- An operation completes: `status` is OK and `drive` puts its result on its own result lanes; the lanes of the operations
not selected carry nothing a host may use (30_encoding.md R70). -/
def complete (drive : Outputs → Outputs) (s : State) : Host.Outcome State Fault Refusal :=
  .next (s.settle (drive (Outputs.undriven Config.statusOk s.freeCount)))

/-- An operation ends with a failure, the block's whole "trap entry": `status` carries the code, no result exists, nothing is
saved and control goes nowhere (60_exceptions.md R194). There is no return from it (R196). -/
def fail (f : Failure) (s : State) : Host.Outcome State Fault Refusal :=
  .next (s.settle (Outputs.undriven (failureCode f) s.freeCount))

/-- ENC's result lanes: the length, the characters, and zero on the character lanes past the end (30_encoding.md R67, R68). -/
def Outputs.driveString (str : List Chr) (o : Outputs) : Outputs :=
  { o with
    strOutLen := BitVec.ofNat 8 str.length
    strOutChr := Vector.ofFn fun lane => (str[lane.val]?).getD 0#8 }

/-- DEC's result lane. -/
def Outputs.driveValue (v : Value) (o : Outputs) : Outputs :=
  { o with valOut := v }

/-- DCP's result lanes, the unused high bits driven to zero (30_encoding.md R67). -/
def Outputs.driveFields (p : Precision) (t : FieldTriple p) (eunb : BitVec 12) (o : Outputs) : Outputs :=
  { o with
    signOut := t.sign
    expOut := t.exponent.setWidth 11
    manOut := t.mantissa.setWidth 52
    eunbOut := eunb }

/-- ASM's result lane, the unused high bits driven to zero (30_encoding.md R67). -/
def Outputs.driveRaw (p : Precision) (raw : RawBits p) (o : Outputs) : Outputs :=
  { o with rawOut := raw.setWidth 64 }

/-- What a host does to begin an operation: it presents a command word and operands (10_state.md R22,
70_reset_and_hazards.md R223). -/
def State.present (s : State) (r : Inputs) : State := { s with inp := r }

end Sys2Proof.Machine
end

