-- ==== Sys2Proof/Machine/Assembler.lean ====
section
/-! DEFINITION. The unit ieee754_assembler, operation ASM (40_fields.md R96). -/

namespace Sys2Proof.Machine

/-- `ASM(sign, exponent, mantissa, p)`: the stored exponent goes in as it is; total, nothing is checked or normalised
(40_fields.md R96, R98). -/
def asm (p : Precision) (t : FieldTriple p) : RawBits p := join p t

/-- ASM on the lanes. -/
def runAsm (p : Precision) (s : State) : Host.Outcome State Fault Refusal :=
  complete (Outputs.driveRaw p (asm p (readFields p s.inp))) s

/-- ASM.32 (40_fields.md R96). -/
def execAsm32 (s : State) : Host.Outcome State Fault Refusal := runAsm .single s

/-- ASM.64 (40_fields.md R96). -/
def execAsm64 (s : State) : Host.Outcome State Fault Refusal := runAsm .double s

end Sys2Proof.Machine
end

