-- ==== Sys2Proof/Machine/BitString.lean ====
section
/-! DEFINITION. BitStrings and byte sequences: rendering, validation, parsing, the ByteAdapter and the reinterpretation.
41_encoder.md R123, 42_decoder.md R152, R155, R158, R161. -/

namespace Sys2Proof.Machine

/-- The character of a bit. -/
def chrOfBit (b : Bool) : Chr := if b then Config.ch1 else Config.ch0

/-- `Render(raw, W)`: exactly W characters, the most significant bit first (41_encoder.md R123). -/
def render (w : Nat) (raw : BitVec w) : List Chr :=
  (List.range w).map fun i => chrOfBit (raw.getLsbD (w - 1 - i))

/-- A binary character: '0' or '1' (00_scope.md R10). -/
def isBinary (c : Chr) : Bool := c == Config.ch0 || c == Config.ch1

/-- `Valid(bits, W)`: exactly W characters, all of them binary (42_decoder.md R152). -/
def valid (w : Nat) (bits : List Chr) : Bool := bits.length == w && bits.all isBinary

/-- `digit(c)` (42_decoder.md R155). -/
def digit (c : Chr) : Nat := if c = Config.ch1 then 1 else 0

/-- `Parse(bits)`: the base-2 numeral, most significant digit first (42_decoder.md R155). -/
def parse (w : Nat) (bits : List Chr) : BitVec w :=
  BitVec.ofNat w (bits.foldl (fun raw c => raw * 2 + digit c) 0)

/-- `IntToBytes(n, L)`: the L low bytes of n, big-endian, higher bytes truncated (42_decoder.md R157, R158).
L is positive; `L = 0` is given no meaning (R160, the spec's decision D27), so the call asks for a proof (log entry 10). -/
def intToBytes (n len : Nat) (_positive : 0 < len) : List Byte :=
  (List.range len).map fun j => BitVec.ofNat 8 (n >>> (8 * (len - 1 - j)))

/-- `BytesToBits(b, L)`: the bytes read big-endian, as the integer `sum of b[j] * 256^(L-1-j)` in `8 * L` bits
(42_decoder.md R161). -/
def bytesToBits (len : Nat) (b : List Byte) : BitVec (8 * len) :=
  BitVec.ofNat (8 * len) (b.foldl (fun acc x => acc * 256 + x.toNat) 0)

/-- The byte length of a precision is positive. -/
theorem byteLenOf_pos (p : Precision) : 0 < byteLenOf p := by cases p <;> decide

/-- `L = W / 8` exactly. -/
theorem eight_mul_byteLenOf (p : Precision) : 8 * byteLenOf p = widthOf p := by cases p <;> rfl

/-- The big-endian byte sequence inside DEC and its reinterpretation as a pattern of the same width
(42_decoder.md R150, R161 to R163). -/
def reinterpret (p : Precision) (raw : RawBits p) : RawBits p :=
  (bytesToBits (byteLenOf p) (intToBytes raw.toNat (byteLenOf p) (byteLenOf_pos p))).cast (eight_mul_byteLenOf p)

end Sys2Proof.Machine
end

