-- ==== Sys2Proof/Machine/Denote.lean ====
section
/-! DEFINITION. The number a bit pattern denotes (40_fields.md R104). The block computes none of these numbers: they give
"representable exactly" (42_decoder.md R171) and the rounding rules of the narrowing their meaning. -/

namespace Sys2Proof.Machine

/-- What a bit pattern denotes: a number, an infinity by its sign, or no number (40_fields.md R104). -/
inductive Denoted where
  | number (q : ℚ)
  | infinity (negative : Bool)
  | notANumber
deriving DecidableEq, Repr

/-- `(-1)^sign`. -/
def signFactor (sign : BitVec 1) : ℚ := if sign = 1#1 then -1 else 1

/-- What a field triple denotes, class by class (40_fields.md R104): a normal has the implicit leading 1 and the scale
`2^(exponent - BIAS)`, a subnormal has none and the scale `2^(1 - BIAS)` (PRESUMED by the spec from IEEE 754, its G3; log entry 9).
Both zeros denote 0. -/
def FieldTriple.denote {p : Precision} (t : FieldTriple p) : Denoted :=
  let frac : ℚ := (t.mantissa.toNat : ℚ) / 2 ^ manWidthOf p
  match t.classify with
  | .zero => .number 0
  | .subnormal => .number (signFactor t.sign * 2 ^ ((1 : ℤ) - (biasOf p : ℤ)) * frac)
  | .normal => .number (signFactor t.sign * 2 ^ ((t.exponent.toNat : ℤ) - (biasOf p : ℤ)) * (1 + frac))
  | .infinity => .infinity (t.sign = 1#1)
  | .nan => .notANumber

/-- What a bit pattern denotes, by its fields (40_fields.md R104). -/
def denote (p : Precision) (raw : RawBits p) : Denoted := (fields p raw).denote

end Sys2Proof.Machine
end

