-- ==== Sys2Proof/Machine/Numeric.lean ====
section
/-! DEFINITION. The two numeric conversions of the block: the double-to-single narrowing of ENC at precision 32 and the
single-to-double widening of DEC at precision 32. 41_encoder.md R126 to R132, 42_decoder.md R164 to R168. -/

namespace Sys2Proof.Machine

/-! ### Narrowing -/

/-- `NanNarrow(s, M)`: the sign and the top 23 mantissa bits are kept; where those 23 bits are all zero the mantissa is
`0x400000`, so that the result is still a NaN (41_encoder.md R131). The spec's default for its parameter, its decision D13
(log entry 6). -/
def nanNarrow (sign : BitVec 1) (mantissa : BitVec 52) : BitVec 32 :=
  let top := mantissa.extractLsb' 29 23
  join .single { sign := sign, exponent := 0xFF#8, mantissa := if top = 0#23 then 0x400000#23 else top }

/-- The significand of a finite double, its leading 1 made explicit; a subnormal has none (41_encoder.md R127). -/
def significand (exponent mantissa : Nat) : Nat :=
  if exponent = 0 then mantissa else 2 ^ 52 + mantissa

/-- The exponent a finite double scales by: a subnormal scales like exponent 1 (41_encoder.md R127). -/
def effectiveExponent (exponent : Nat) : Nat :=
  if exponent = 0 then 1 else exponent

/-- `keep + up`: drop the low `k` bits of `sig`, rounding to nearest, ties to even (41_encoder.md R127). `2^k` is written
`1 <<< k` (00_scope.md R9), which Lean evaluates at k = 925 too. -/
def roundOff (sig k : Nat) : Nat :=
  let keep := sig >>> k
  let rem := sig % (1 <<< k)
  let half := 1 <<< (k - 1)
  keep + if rem > half ∨ (rem = half ∧ keep % 2 = 1) then 1 else 0

/-- How many low bits of the significand are dropped (41_encoder.md R127). -/
def narrowShift (ee : Nat) : Nat := if ee ≥ 897 then 29 else 926 - ee

/-- The exponent part of the result's magnitude (41_encoder.md R127). -/
def narrowBase (ee : Nat) : Nat := if ee ≥ 897 then (ee - 897) * 2 ^ 23 else 0

/-- `mag'`: the 31 low bits of the narrowed finite pattern, overflow going to infinity (41_encoder.md R127, R129). -/
def narrowMagnitude (exponent mantissa : Nat) : Nat :=
  let ee := effectiveExponent exponent
  let mag := narrowBase ee + roundOff (significand exponent mantissa) (narrowShift ee)
  if mag ≥ 0x7F800000 then 0x7F800000 else mag

/-- `Narrow(d)`: binary64 to binary32, round to nearest, ties to even, overflow to infinity, gradual underflow
(41_encoder.md R127, R131, R132). The spec's default for its parameter, its decision D11 (log entry 6). -/
def narrow (d : BitVec 64) : BitVec 32 :=
  let t := fields .double d
  if t.exponent = 2047#11 then
    if t.mantissa = 0#52 then join .single { sign := t.sign, exponent := 0xFF#8, mantissa := 0#23 }
    else nanNarrow t.sign t.mantissa
  else BitVec.ofNat 32 (t.sign.toNat * 2 ^ 31 + narrowMagnitude t.exponent.toNat t.mantissa.toNat)

/-- What the document requires of a narrowing, whatever conversion is used (41_encoder.md R126): (a) a finite double whose
number some single pattern denotes narrows to that pattern, the zeros apart, whose two patterns denote one number; (b) the
signed zeros are kept. Its (c) silence and (d) totality are the type's. -/
def NarrowingAdmissible (nar : BitVec 64 → BitVec 32) : Prop :=
  (∀ (d : BitVec 64) (f : BitVec 32) (q : ℚ), q ≠ 0 → denote .double d = .number q → denote .single f = .number q →
    nar d = f) ∧
  nar 0x8000000000000000#64 = 0x80000000#32 ∧
  nar 0x0000000000000000#64 = 0x00000000#32

/-! ### Widening -/

/-- `NanWiden(s, M)`: the sign is kept and the 23 mantissa bits go to the top of the 52 (42_decoder.md R168). The spec's
default for its parameter, its decision D13 (log entry 6). -/
def nanWiden (sign : BitVec 1) (mantissa : BitVec 23) : BitVec 64 :=
  join .double { sign := sign, exponent := 2047#11, mantissa := BitVec.ofNat 52 (mantissa.toNat <<< 29) }

/-- The widening of a single subnormal: its leading 1, at bit h, becomes the implicit 1 (42_decoder.md R165). -/
def widenSubnormal (sign : BitVec 1) (mantissa : BitVec 23) : BitVec 64 :=
  let m := mantissa.toNat
  let h := Nat.log2 m
  join .double
    { sign := sign, exponent := BitVec.ofNat 11 (h + 874), mantissa := BitVec.ofNat 52 ((m - 2 ^ h) <<< (52 - h)) }

/-- `Widen(f)`: binary32 to binary64, exact for every pattern (42_decoder.md R165; PRESUMED by the spec from IEEE 754, its G6;
log entry 9). -/
def widen (f : BitVec 32) : BitVec 64 :=
  let t := fields .single f
  if t.exponent = 255#8 then
    if t.mantissa = 0#23 then join .double { sign := t.sign, exponent := 2047#11, mantissa := 0#52 }
    else nanWiden t.sign t.mantissa
  else if t.exponent = 0#8 then
    if t.mantissa = 0#23 then join .double { sign := t.sign, exponent := 0#11, mantissa := 0#52 }
    else widenSubnormal t.sign t.mantissa
  else
    join .double
      { sign := t.sign
        exponent := BitVec.ofNat 11 (t.exponent.toNat + 896)
        mantissa := BitVec.ofNat 52 (t.mantissa.toNat <<< 29) }

/-! ### Between values and patterns of a precision -/

/-- From a value to RawBits by a given narrowing: the identity at Double (41_encoder.md R122). -/
def toRawWith (nar : BitVec 64 → BitVec 32) (p : Precision) (value : Value) : RawBits p :=
  match p with
  | .single => nar value
  | .double => value

/-- From the reinterpreted pattern to the value: the identity at Double, the widening at Single (42_decoder.md R164). -/
def toValue (p : Precision) (f : RawBits p) : Value :=
  match p, f with
  | .single, f => widen f
  | .double, f => f

end Sys2Proof.Machine
end

