-- ==== Sys2Proof/Machine/Decoder.lean ====
section
/-! DEFINITION. The unit fp_bit_decoder, operation DEC (42_decoder.md R150). -/

namespace Sys2Proof.Machine

/-- `DEC(bits, p)`: the whole string is validated before it is parsed (42_decoder.md R150, R151). -/
def dec (p : Precision) (bits : List Chr) : Except Failure Value :=
  if valid (widthOf p) bits then .ok (toValue p (reinterpret p (parse (widthOf p) bits)))
  else .error .invalidBitString

/-- DEC on the lanes. -/
def runDec (p : Precision) (s : State) : Host.Outcome State Fault Refusal :=
  match dec p (readString s.inp) with
  | .ok v => complete (Outputs.driveValue v) s
  | .error f => fail f s

/-- DEC.32 (42_decoder.md R150). -/
def execDec32 (s : State) : Host.Outcome State Fault Refusal := runDec .single s

/-- DEC.64 (42_decoder.md R150). -/
def execDec64 (s : State) : Host.Outcome State Fault Refusal := runDec .double s

end Sys2Proof.Machine
end

