-- ==== Sys2Proof/Machine/Decomposer.lean ====
section
/-! DEFINITION. The unit ieee754_decomposer, operation DCP (40_fields.md R92). -/

namespace Sys2Proof.Machine

/-- `DCP(raw, p)`: the field triple and the signed exponent; total, no class of pattern is treated apart
(40_fields.md R92, R94). -/
def dcp (p : Precision) (raw : RawBits p) : FieldTriple p × BitVec 12 :=
  let t := fields p raw
  (t, signedExponent p t.exponent)

/-- DCP on the lanes. -/
def runDcp (p : Precision) (s : State) : Host.Outcome State Fault Refusal :=
  let r := dcp p (readRaw p s.inp)
  complete (Outputs.driveFields p r.1 r.2) s

/-- DCP.32 (40_fields.md R92). -/
def execDcp32 (s : State) : Host.Outcome State Fault Refusal := runDcp .single s

/-- DCP.64 (40_fields.md R92). -/
def execDcp64 (s : State) : Host.Outcome State Fault Refusal := runDcp .double s

end Sys2Proof.Machine
end

