-- ==== Sys2Proof/Machine/Encoder.lean ====
section
/-! DEFINITION. The unit fp_bit_encoder, operation ENC (41_encoder.md R120). -/

namespace Sys2Proof.Machine

/-- `ENC(value, p)` by a given narrowing (41_encoder.md R120, R122, R126). -/
def encWith (nar : BitVec 64 → BitVec 32) (p : Precision) (value : Value) : List Chr :=
  render (widthOf p) (toRawWith nar p value)

/-- `ENC(value, p)`, total on values (41_encoder.md R120, R134). -/
def enc (p : Precision) (value : Value) : List Chr := encWith narrow p value

/-- ENC on the lanes. -/
def runEnc (p : Precision) (s : State) : Host.Outcome State Fault Refusal :=
  complete (Outputs.driveString (enc p (readValue s.inp))) s

/-- ENC.32 (41_encoder.md R120). -/
def execEnc32 (s : State) : Host.Outcome State Fault Refusal := runEnc .single s

/-- ENC.64 (41_encoder.md R120). -/
def execEnc64 (s : State) : Host.Outcome State Fault Refusal := runEnc .double s

end Sys2Proof.Machine
end

