-- ==== Sys2Proof/Machine/Dispatch.lean ====
section
/-! DEFINITION. Dispatch: one arm per instruction, one direct call of its meaning (30_encoding.md R70). -/

namespace Sys2Proof.Machine

def exec (i : Instr) (s : State) : Host.Outcome State Fault Refusal :=
  match i with
  | .enc32 => Sys2Proof.Machine.execEnc32 s
  | .enc64 => Sys2Proof.Machine.execEnc64 s
  | .dec32 => Sys2Proof.Machine.execDec32 s
  | .dec64 => Sys2Proof.Machine.execDec64 s
  | .dcp32 => Sys2Proof.Machine.execDcp32 s
  | .dcp64 => Sys2Proof.Machine.execDcp64 s
  | .asm32 => Sys2Proof.Machine.execAsm32 s
  | .asm64 => Sys2Proof.Machine.execAsm64 s

end Sys2Proof.Machine
end

