-- ==== Sys2Proof/Machine/Step.lean ====
section
/-! DEFINITION. One step: the block evaluates the command word and the operands on its input lanes, once.
30_encoding.md R70. -/

namespace Sys2Proof.Machine

/-- One operation. The command word is resolved first; a word whose precision is unsupported ends with PrecisionMismatch
before any operand is looked at (30_encoding.md R64, R71, 60_exceptions.md R191, R195). There is no program counter to
advance: which operation comes next is the host's choice (10_state.md R22; log entry 1). -/
def step (s : State) : Host.Outcome State Fault Refusal :=
  match decode s.inp.cmd with
  | .ok i => exec i s
  | .error f => fail f s

/-- `s` with the instruction whose bits are `w` presented on the command lane, where `step` reads its next instruction.
A command word is nine bits (30_encoding.md R61): the bits above are not carried by the lane (log entry 11). -/
def State.withFetchWord (s : State) (_nbits w : Nat) : State :=
  { s with inp := { s.inp with cmd := BitVec.ofNat 9 w } }

end Sys2Proof.Machine
end

