-- ==== Sys2Proof/Machine/Block.lean ====
section
/-! DEFINITION. The whole block at the level of typed operations, the normative form (30_encoding.md R67, R70), and what a
host reads back from the lanes. The machine's step is written over the lanes; the two levels agree (an obligation). -/

namespace Sys2Proof.Machine

/-- The typed result of an operation, one form per unit (30_encoding.md R65). -/
inductive Result where
  /-- ENC: a BitString. -/
  | string (bits : List Chr)
  /-- DEC: a FloatValue. -/
  | value (v : Value)
  /-- DCP: the field triple and the signed exponent. -/
  | fields (p : Precision) (t : FieldTriple p) (eunb : BitVec 12)
  /-- ASM: RawBits. -/
  | raw (p : Precision) (r : RawBits p)
deriving DecidableEq, Repr

/-- `Exec`, the block as one function from command word and operands to outcome and result (30_encoding.md R70).
A failed operation has no result (60_exceptions.md R194). -/
def blockExec (i : Inputs) : Except Failure Result := do
  let p ← precOf (cmdPrec i.cmd)
  match opOf (cmdOp i.cmd) with
  | .enc => return .string (enc p (readValue i))
  | .dec => do
    let v ← dec p (readString i)
    return .value v
  | .dcp =>
    let r := dcp p (readRaw p i)
    return .fields p r.1 r.2
  | .asm => return .raw p (asm p (readFields p i))

/-- The result lanes of a completed operation, read at its precision: only the low bits that belong to the result, and of
the character lanes those below the stated length (30_encoding.md R66 to R68). -/
def readResult (op : Op) (p : Precision) (o : Outputs) : Result :=
  match op with
  | .enc => .string (laneString o.strOutLen o.strOutChr)
  | .dec => .value o.valOut
  | .dcp =>
    .fields p
      { sign := o.signOut
        exponent := o.expOut.setWidth (expWidthOf p)
        mantissa := o.manOut.setWidth (manWidthOf p) }
      o.eunbOut
  | .asm => .raw p (o.rawOut.setWidth (widthOf p))

/-- What a host learns by reading `status` first and then only the lanes it may read (70_reset_and_hazards.md R223, R226).
`none` when the lanes state no outcome: status 3, or OK beside an unsupported precision; no step leaves such lanes. -/
def observe (cmd : Cmd) (o : Outputs) : Option (Except Failure Result) :=
  if o.status = Config.statusInvalidBitString then some (.error .invalidBitString)
  else if o.status = Config.statusPrecisionMismatch then some (.error .precisionMismatch)
  else if o.status = Config.statusOk then
    match precOf (cmdPrec cmd) with
    | .ok p => some (.ok (readResult (opOf (cmdOp cmd)) p o))
    | .error _ => none
  else none

/-- What the host of state `s` reads. -/
def State.observed (s : State) : Option (Except Failure Result) := observe s.inp.cmd s.out

end Sys2Proof.Machine
end

