-- ==== Sys2Proof/Safety.lean ====
section
/-! DEFINITION. What counts as a safe run: the block answers every operation, its outputs are the function of its inputs, and
the host reads only what it may. -/

namespace Sys2Proof

open Sys2Proof.Machine

/-- The lanes an operation answers on, one name for the result lanes of each unit (30_encoding.md R66). -/
inductive ResultLanes where
  | string
  | value
  | fields
  | raw
deriving DecidableEq, Repr

/-- The result lanes of a unit (30_encoding.md R66). -/
def ResultLanes.ofOp : Op → ResultLanes
  | .enc => .string
  | .dec => .value
  | .dcp => .fields
  | .asm => .raw

/-- A host may read a result lane only when `status` is 0 and the lane belongs to the operation its command word selects
(60_exceptions.md R194, 70_reset_and_hazards.md R226). -/
def mayRead (s : State) (l : ResultLanes) : Bool :=
  s.out.status == Config.statusOk && l == ResultLanes.ofOp (opOf (cmdOp s.inp.cmd))

/-- The outputs are the function `Exec` of the present inputs (10_state.md R34, 30_encoding.md R70). -/
def Settled (s : State) : Prop := s.observed = some (blockExec s.inp)

/-- The result lanes of a completed operation are clean at its precision: ENC states exactly W characters, all binary, and
zero above them; DCP and ASM drive the lane bits above their fields to zero at Single (30_encoding.md R66, R67,
41_encoder.md R124). DEC's value lane has no unused bit. -/
def ResultLanesClean (s : State) : Prop :=
  ∀ i, decode s.inp.cmd = .ok i → s.out.status = Config.statusOk →
    match i.op with
    | .enc =>
      s.out.strOutLen.toNat = widthOf i.precision ∧
      ∀ (lane : Nat) (h : lane < 64),
        (lane < widthOf i.precision → isBinary s.out.strOutChr[lane] = true) ∧
        (widthOf i.precision ≤ lane → s.out.strOutChr[lane] = 0#8)
    | .dec => True
    | .dcp => s.out.expOut.toNat < 2 ^ expWidthOf i.precision ∧ s.out.manOut.toNat < 2 ^ manWidthOf i.precision
    | .asm => s.out.rawOut.toNat < 2 ^ widthOf i.precision

/-- The invariant of the interface: the outputs are settled, their result lanes clean, and `status` is one of the three codes
the spec gives (60_exceptions.md R192). -/
def InterfaceInv (s : State) : Prop := Settled s ∧ ResultLanesClean s ∧ s.out.status ≠ 3#2

/-- Two hosts present the same operation with the same operands: the same command word, and, if it is an instruction, the
same bits on that instruction's operand lanes at its precision (30_encoding.md R65, R67, R68). DEC's characters are operands
only where the stated length is W: a string of another length is refused for its length alone. -/
def SameOperands (a b : Inputs) : Prop :=
  a.cmd = b.cmd ∧
    match decode a.cmd with
    | .error _ => True
    | .ok .enc32 => a.valIn = b.valIn
    | .ok .enc64 => a.valIn = b.valIn
    | .ok .dec32 => a.strInLen = b.strInLen ∧
        (a.strInLen = 32#8 → ∀ (i : Nat) (h : i < 32), a.strInChr[i] = b.strInChr[i])
    | .ok .dec64 => a.strInLen = b.strInLen ∧
        (a.strInLen = 64#8 → ∀ (i : Nat) (h : i < 64), a.strInChr[i] = b.strInChr[i])
    | .ok .dcp32 => a.rawIn.extractLsb' 0 32 = b.rawIn.extractLsb' 0 32
    | .ok .dcp64 => a.rawIn = b.rawIn
    | .ok .asm32 => a.signIn = b.signIn ∧ a.expIn.extractLsb' 0 8 = b.expIn.extractLsb' 0 8 ∧
        a.manIn.extractLsb' 0 23 = b.manIn.extractLsb' 0 23
    | .ok .asm64 => a.signIn = b.signIn ∧ a.expIn = b.expIn ∧ a.manIn = b.manIn

/-- One transaction: the host presents a command word and operands, and the block evaluates them
(20_memory.md R50, 70_reset_and_hazards.md R223). -/
def transact (s : State) (r : Inputs) : Host.Outcome State Fault Refusal := step (s.present r)

/-- A run of the block: a finite list of operations chosen by the host (70_reset_and_hazards.md R228), and what the host
reads after each. An operand that is the result of an earlier operation stands in the list as the value it was. A step that
stopped would cut the list short; none does. -/
def runHost : State → List Inputs → List (Option (Except Failure Result))
  | _, [] => []
  | s, r :: rs =>
    match transact s r with
    | .next t => t.observed :: runHost t rs
    | .fault _ => []
    | .refused _ => []

/-- A step is safe when it answers a next state, leaves the host's inputs alone and settles the outputs
(70_reset_and_hazards.md R223, R227). -/
def SafeStep (s : State) : Prop :=
  ∃ t, step s = .next t ∧ t.inp = s.inp ∧ Settled t

end Sys2Proof
end

