-- ==== Sys2Proof/Certificates/Slice0/Obligations.lean ====
section
/-! DEFINITION. What is to be proved of the block: its command words, each operation's result on the lanes, the typed
functions, the two conversions, the round trips, and the block as a whole. -/

open Sys2Proof Sys2Proof.Machine

/-! ### Command words and the step -/

/-- 30_encoding.md R70: a step runs the instruction its command word decodes to, and nothing around it; the nine bits that
`withFetchWord` presents are the word the step decodes. -/
def Obligations.StepRunsDecodedInstruction : Prop :=
  (∀ (s : State) (i : Instr), decode s.inp.cmd = .ok i → i.wf = true ∧ step s = exec i s) ∧
  (∀ (s : State) (i : Instr), decodeTableWord 16 (encode i).toNat = some i ∧
    step (s.withFetchWord 16 (encode i).toNat) = exec i (s.withFetchWord 16 (encode i).toNat))

/-- 30_encoding.md R65, R71: the eight legal command words as the table prints them, and words one bit away from legal. -/
def Obligations.CommandWordsOfTheTable : Prop :=
  decode 0b000100000#9 = .ok .enc32 ∧ decode 0b001000000#9 = .ok .enc64 ∧
  decode 0b010100000#9 = .ok .dec32 ∧ decode 0b011000000#9 = .ok .dec64 ∧
  decode 0b100100000#9 = .ok .dcp32 ∧ decode 0b101000000#9 = .ok .dcp64 ∧
  decode 0b110100000#9 = .ok .asm32 ∧ decode 0b111000000#9 = .ok .asm64 ∧
  decode 0b001100000#9 = .error .precisionMismatch ∧ decode 0b100100001#9 = .error .precisionMismatch

/-- 30_encoding.md R61 to R65, R71: the decoder gives an instruction exactly for that instruction's own word, and rejects a word
exactly when its `prec` field is neither 32 nor 64. -/
def Obligations.DecodeAndEncodeAgree : Prop :=
  (∀ i : Instr, decode (encode i) = .ok i) ∧
  (∀ (cmd : Cmd) (i : Instr), decode cmd = .ok i → encode i = cmd) ∧
  (∀ (cmd : Cmd) (f : Failure), decode cmd = .error f ↔
    f = .precisionMismatch ∧ cmd.toNat % 128 ≠ 32 ∧ cmd.toNat % 128 ≠ 64)

/-- 60_exceptions.md R191, R195, 30_encoding.md R64, R71: a step ends with PrecisionMismatch (status 2) exactly when the `prec`
field is neither 32 nor 64, whatever the `op` field and the operands, a bad string included. -/
def Obligations.PrecisionMismatchFirst : Prop :=
  ∀ s : State, ∃ t, step s = .next t ∧ t.inp = s.inp ∧
    (t.out.status = 2#2 ↔
      (s.inp.cmd.extractLsb' 0 7 ≠ 32#7 ∧ s.inp.cmd.extractLsb' 0 7 ≠ 64#7))

/-- 60_exceptions.md R190, R192, R193: every step answers a next state and keeps the inputs; status is never 3, and it is 1
exactly for a DEC at a supported precision whose string is not valid. -/
def Obligations.StepAlwaysAnswers : Prop :=
  ∀ s : State, ∃ t, step s = .next t ∧ t.inp = s.inp ∧ t.out.status ≠ 3#2 ∧
    (t.out.status = 1#2 ↔
      ∃ p, decode s.inp.cmd = .ok (Instr.of .dec p) ∧ valid (widthOf p) (readString s.inp) = false)

/-! ### Each operation on the lanes: it completes, its result, and what it leaves alone -/

/-- 41_encoder.md R120, R122, R123: ENC.64 completes on every value, and character i is bit 63 - i of the value itself.
The input lanes are unchanged. -/
def Obligations.Enc64WritesTheValuesBits : Prop :=
  ∀ s : State, ∃ t, exec .enc64 s = .next t ∧ t.inp = s.inp ∧ t.out.status = 0#2 ∧ t.out.strOutLen = 64#8 ∧
    ∀ (i : Nat) (h : i < 64), t.out.strOutChr[i] = if s.inp.valIn.getLsbD (63 - i) then 0x31#8 else 0x30#8

/-- 41_encoder.md R120, R122, R123, 30_encoding.md R67: ENC.32 completes on every value, character i below 32 is bit 31 - i of the
narrowed pattern, and lanes 32 to 63 are zero. The input lanes are unchanged. -/
def Obligations.Enc32WritesTheNarrowedBits : Prop :=
  ∀ s : State, ∃ t, exec .enc32 s = .next t ∧ t.inp = s.inp ∧ t.out.status = 0#2 ∧ t.out.strOutLen = 32#8 ∧
    ∀ (i : Nat) (h : i < 64), t.out.strOutChr[i] =
      if i < 32 then (if (narrow s.inp.valIn).getLsbD (31 - i) then 0x31#8 else 0x30#8) else 0x00#8

/-- 42_decoder.md R150, R155, R164: DEC.64 completes on every valid string, and bit 63 - i of the value is character i.
The input lanes are unchanged. -/
def Obligations.Dec64ReadsTheStringsBits : Prop :=
  ∀ s : State, s.inp.strInLen = 64#8 →
    (∀ (i : Nat) (h : i < 64), s.inp.strInChr[i] = 0x30#8 ∨ s.inp.strInChr[i] = 0x31#8) →
    ∃ t, exec .dec64 s = .next t ∧ t.inp = s.inp ∧ t.out.status = 0#2 ∧
      ∀ (i : Nat) (h : i < 64), t.out.valOut.getLsbD (63 - i) = decide (s.inp.strInChr[i] = 0x31#8)

/-- 42_decoder.md R150, R155, R164: DEC.32 completes on every valid string, whatever lanes 32 to 63 hold, and the value is the
widening of the pattern whose bit 31 - i is character i. The input lanes are unchanged. -/
def Obligations.Dec32WidensTheStringsBits : Prop :=
  ∀ s : State, s.inp.strInLen = 32#8 →
    (∀ (i : Nat) (h : i < 32), s.inp.strInChr[i] = 0x30#8 ∨ s.inp.strInChr[i] = 0x31#8) →
    ∃ t, exec .dec32 s = .next t ∧ t.inp = s.inp ∧ t.out.status = 0#2 ∧
      ∃ f : BitVec 32, t.out.valOut = widen f ∧
        ∀ (i : Nat) (h : i < 32), f.getLsbD (31 - i) = decide (s.inp.strInChr[i] = 0x31#8)

/-- 42_decoder.md R151, R152, 60_exceptions.md R190, R194: DEC of a string of another length, or with a character among the first W
that is neither code, ends with InvalidBitString (status 1); the input lanes are unchanged. -/
def Obligations.DecRefusesOtherStrings : Prop :=
  ∀ s : State,
    ((s.inp.strInLen ≠ 32#8 ∨
        ∃ (i : Nat) (h : i < 32), s.inp.strInChr[i] ≠ 0x30#8 ∧ s.inp.strInChr[i] ≠ 0x31#8) →
      ∃ t, exec .dec32 s = .next t ∧ t.inp = s.inp ∧ t.out.status = 1#2) ∧
    ((s.inp.strInLen ≠ 64#8 ∨
        ∃ (i : Nat) (h : i < 64), s.inp.strInChr[i] ≠ 0x30#8 ∧ s.inp.strInChr[i] ≠ 0x31#8) →
      ∃ t, exec .dec64 s = .next t ∧ t.inp = s.inp ∧ t.out.status = 1#2)

/-- 40_fields.md R92, R93, R100, 30_encoding.md R67: DCP.32 completes on every pattern with sign bit 31, exponent bits 30 to 23,
mantissa bits 22 to 0, zeros above them on their lanes, and the signed exponent; `raw_in[63:32]` plays no part.
The input lanes are unchanged. -/
def Obligations.Dcp32SelectsTheFields : Prop :=
  ∀ s : State, ∃ t, exec .dcp32 s = .next t ∧ t.inp = s.inp ∧ t.out.status = 0#2 ∧
    t.out.signOut.toNat = s.inp.rawIn.toNat / 2 ^ 31 % 2 ∧
    t.out.expOut.toNat = s.inp.rawIn.toNat / 2 ^ 23 % 2 ^ 8 ∧
    t.out.manOut.toNat = s.inp.rawIn.toNat % 2 ^ 23 ∧
    t.out.eunbOut.toInt = (s.inp.rawIn.toNat / 2 ^ 23 % 2 ^ 8 : Nat) - (127 : Int)

/-- 40_fields.md R92, R93, R100: DCP.64 completes on every pattern with sign bit 63, exponent bits 62 to 52, mantissa bits 51 to 0,
and the signed exponent. The input lanes are unchanged. -/
def Obligations.Dcp64SelectsTheFields : Prop :=
  ∀ s : State, ∃ t, exec .dcp64 s = .next t ∧ t.inp = s.inp ∧ t.out.status = 0#2 ∧
    t.out.signOut.toNat = s.inp.rawIn.toNat / 2 ^ 63 ∧
    t.out.expOut.toNat = s.inp.rawIn.toNat / 2 ^ 52 % 2 ^ 11 ∧
    t.out.manOut.toNat = s.inp.rawIn.toNat % 2 ^ 52 ∧
    t.out.eunbOut.toInt = (s.inp.rawIn.toNat / 2 ^ 52 % 2 ^ 11 : Nat) - (1023 : Int)

/-- 40_fields.md R96, R97, 30_encoding.md R67: ASM.32 completes on every triple; `exp_in[10:8]` and `man_in[51:23]` play no part and
`raw_out[63:32]` is zero. The input lanes are unchanged. -/
def Obligations.Asm32JoinsTheFields : Prop :=
  ∀ s : State, ∃ t, exec .asm32 s = .next t ∧ t.inp = s.inp ∧ t.out.status = 0#2 ∧
    t.out.rawOut.toNat =
      s.inp.signIn.toNat * 2 ^ 31 + s.inp.expIn.toNat % 2 ^ 8 * 2 ^ 23 + s.inp.manIn.toNat % 2 ^ 23

/-- 40_fields.md R96, R97: ASM.64 completes on every triple. The input lanes are unchanged. -/
def Obligations.Asm64JoinsTheFields : Prop :=
  ∀ s : State, ∃ t, exec .asm64 s = .next t ∧ t.inp = s.inp ∧ t.out.status = 0#2 ∧
    t.out.rawOut.toNat = s.inp.signIn.toNat * 2 ^ 63 + s.inp.expIn.toNat * 2 ^ 52 + s.inp.manIn.toNat

/-! ### Rendering, validation, parsing, the ByteAdapter -/

/-- 41_encoder.md R123: exactly W characters, most significant bit first, high zero bits written. -/
def Obligations.RenderWritesEveryBit : Prop :=
  ∀ (w : Nat) (raw : BitVec w), (render w raw).length = w ∧
    ∀ i, i < w → (render w raw)[i]? = some (if raw.getLsbD (w - 1 - i) then Config.ch1 else Config.ch0)

/-- 41_encoder.md R124: for every value and both precisions ENC returns W(p) characters, each '0' or '1', and on the lanes
`str_out_len` is 32 or 64. -/
def Obligations.EncWidthInvariant : Prop :=
  (∀ (p : Precision) (v : Value), (enc p v).length = widthOf p ∧
    ∀ c ∈ enc p v, c = Config.ch0 ∨ c = Config.ch1) ∧
  (∀ s : State, ∃ t, exec .enc32 s = .next t ∧ t.out.strOutLen = 32#8) ∧
  (∀ s : State, ∃ t, exec .enc64 s = .next t ∧ t.out.strOutLen = 64#8)

/-- 41_encoder.md R125: -0.0 encodes to '1' and then '0' characters only, +0.0 to '0' characters only, at both precisions. -/
def Obligations.SignedZerosEncode : Prop :=
  enc .double 0x8000000000000000#64 = Config.ch1 :: List.replicate 63 Config.ch0 ∧
  enc .single 0x8000000000000000#64 = Config.ch1 :: List.replicate 31 Config.ch0 ∧
  enc .double 0x0000000000000000#64 = List.replicate 64 Config.ch0 ∧
  enc .single 0x0000000000000000#64 = List.replicate 32 Config.ch0

/-- 42_decoder.md R152: `Valid` holds exactly for W binary characters; where it does not hold DEC raises InvalidBitString, and only
there; on the lanes the causes are `str_in_len` other than W, and for `str_in_len = W` a non-binary lane below W. -/
def Obligations.ValidStringsExactly : Prop :=
  (∀ (w : Nat) (bits : List Chr), valid w bits = true ↔
    bits.length = w ∧ ∀ i, i < w → bits[i]? = some Config.ch0 ∨ bits[i]? = some Config.ch1) ∧
  (∀ (p : Precision) (bits : List Chr), dec p bits = .error .invalidBitString ↔ ¬ valid (widthOf p) bits = true) ∧
  (∀ (p : Precision) (i : Inputs), valid (widthOf p) (readString i) = true ↔
    i.strInLen.toNat = widthOf p ∧
    ∀ (lane : Nat) (h : lane < 64), lane < widthOf p →
      i.strInChr[lane] = Config.ch0 ∨ i.strInChr[lane] = Config.ch1)

/-- 42_decoder.md R155: a valid string parses to the base-2 number it spells, most significant digit first, with no wrap. -/
def Obligations.ParseReadsBaseTwo : Prop :=
  ∀ (w : Nat) (bits : List Chr), valid w bits = true →
    (parse w bits).toNat =
      ∑ i ∈ Finset.range w, (if bits[i]? = some Config.ch1 then 1 else 0) * 2 ^ (w - 1 - i) ∧
    ∀ i, i < w → (parse w bits).getLsbD (w - 1 - i) = decide (bits[i]? = some Config.ch1)

/-- 42_decoder.md R156: `Parse` and `Render` are mutual inverses. -/
def Obligations.RenderAndParseInverse : Prop :=
  (∀ (w : Nat) (raw : BitVec w), parse w (render w raw) = raw) ∧
  (∀ (w : Nat) (bits : List Chr), valid w bits = true → render w (parse w bits) = bits)

/-- 42_decoder.md R158: exactly L bytes, byte j the quotient by `2^(8*(L-1-j))` modulo 256; bits at 8L and above appear in none. -/
def Obligations.IntToBytesBigEndian : Prop :=
  ∀ (n len : Nat) (h : 0 < len), (intToBytes n len h).length = len ∧
    (∀ j, j < len → ((intToBytes n len h)[j]?).map BitVec.toNat = some (n / 2 ^ (8 * (len - 1 - j)) % 256)) ∧
    intToBytes n len h = intToBytes (n % 2 ^ (8 * len)) len h

/-- 42_decoder.md R161: the bytes read big-endian are the sum of `b[j] * 2^(8*(L-1-j))`. -/
def Obligations.BytesToBitsBigEndian : Prop :=
  ∀ (len : Nat) (b : List Byte), b.length = len →
    (bytesToBits len b).toNat =
      ∑ j ∈ Finset.range len, ((b[j]?).map BitVec.toNat).getD 0 * 2 ^ (8 * (len - 1 - j))

/-- 20_memory.md R40: element j of the byte sequence is the slice `n[8*(L-j)-1 : 8*(L-1-j)]`. -/
def Obligations.ByteSequenceSlices : Prop :=
  ∀ (len : Nat) (h : 0 < len) (n : BitVec (8 * len)) (j : Nat), j < len →
    (intToBytes n.toNat len h)[j]? = some (n.extractLsb' (8 * (len - 1 - j)) 8)

/-- 42_decoder.md R162: the adapter followed by the reinterpretation is the identity on RawBits. -/
def Obligations.AdapterThenReinterpretIsIdentity : Prop :=
  (∀ (len : Nat) (h : 0 < len) (raw : BitVec (8 * len)), bytesToBits len (intToBytes raw.toNat len h) = raw) ∧
  (∀ (p : Precision) (raw : RawBits p), reinterpret p raw = raw)

/-! ### Fields -/

/-- 40_fields.md R93: `Fields` as integer arithmetic. -/
def Obligations.FieldsAsArithmetic : Prop :=
  ∀ (p : Precision) (raw : RawBits p),
    (fields p raw).sign.toNat = raw.toNat / 2 ^ (widthOf p - 1) ∧
    (fields p raw).exponent.toNat = raw.toNat / 2 ^ manWidthOf p % 2 ^ expWidthOf p ∧
    (fields p raw).mantissa.toNat = raw.toNat % 2 ^ manWidthOf p

/-- 40_fields.md R97: `Join` as integer arithmetic, below 2^W, and inverse to `Fields`. -/
def Obligations.JoinAsArithmetic : Prop :=
  ∀ (p : Precision) (t : FieldTriple p),
    (join p t).toNat =
      t.sign.toNat * 2 ^ (widthOf p - 1) + t.exponent.toNat * 2 ^ manWidthOf p + t.mantissa.toNat ∧
    (join p t).toNat < 2 ^ widthOf p ∧ fields p (join p t) = t ∧
    ∀ raw : RawBits p, join p (fields p raw) = raw

/-- 40_fields.md R100, R101: the signed exponent is exact and never wraps, and is undone by adding the bias. -/
def Obligations.SignedExponentExact : Prop :=
  ∀ (p : Precision) (e : BitVec (expWidthOf p)),
    (signedExponent p e).toInt = (e.toNat : Int) - biasOf p ∧
    (BitVec.ofInt (expWidthOf p) ((signedExponent p e).toInt + biasOf p)) = e

/-! ### Narrowing and widening -/

/-- 41_encoder.md R126: the narrowing the model uses is exact where possible, keeps the signed zeros, and is silent and total: ENC.32
completes with status 0 whatever the value. What a pattern denotes is the spec's reading of IEEE 754 (log entry 9). -/
def Obligations.NarrowMeetsTheRequirements : Prop :=
  NarrowingAdmissible narrow ∧
  ∀ s : State, ∃ t, exec .enc32 s = .next t ∧ t.out.status = 0#2

/-- 41_encoder.md R127 (the spec's default for its parameter, decision D11; log entry 6): a finite double below the overflow midpoint
narrows, sign kept, to a single whose number is nearest to its own, and of two nearest to the even one. What a pattern
denotes is the spec's reading of IEEE 754 (its G2, G3; log entry 9). -/
def Obligations.NarrowRoundsToNearestEven : Prop :=
  ∀ (d : BitVec 64) (q : ℚ), denote .double d = .number q → |q| < 2 ^ 128 - 2 ^ 103 →
    (fields .single (narrow d)).sign = (fields .double d).sign ∧
    ∃ r : ℚ, denote .single (narrow d) = .number r ∧
      ∀ (f : BitVec 32) (r' : ℚ), denote .single f = .number r' →
        |q - r| ≤ |q - r'| ∧ (r' ≠ r → |q - r'| = |q - r| → (narrow d).getLsbD 0 = false)

/-- 41_encoder.md R129 (as above, D11; log entries 6 and 9): a finite double of magnitude at least `2^128 - 2^103` narrows to the infinity of
its sign. -/
def Obligations.NarrowOverflowsToInfinity : Prop :=
  ∀ (d : BitVec 64) (q : ℚ), denote .double d = .number q → 2 ^ 128 - 2 ^ 103 ≤ |q| →
    narrow d = if q < 0 then 0xFF800000#32 else 0x7F800000#32

/-- 41_encoder.md R130 (as above, D11; log entries 6 and 9): a magnitude of at most `2^-150` narrows to the zero of the value's sign, and one
strictly between `2^-150` and `2^-149` to the smallest subnormal with the sign. -/
def Obligations.NarrowUnderflowsGradually : Prop :=
  ∀ (d : BitVec 64) (q : ℚ), denote .double d = .number q →
    (|q| ≤ (2 : ℚ) ^ (-150 : ℤ) →
      narrow d = if (fields .double d).sign = 1#1 then 0x80000000#32 else 0x00000000#32) ∧
    ((2 : ℚ) ^ (-150 : ℤ) < |q| → |q| < (2 : ℚ) ^ (-149 : ℤ) →
      narrow d = if (fields .double d).sign = 1#1 then 0x80000001#32 else 0x00000001#32)

/-- 41_encoder.md R131, R132, 42_decoder.md R168 (the spec's defaults, D12, D13; log entry 6): a NaN narrows to a NaN of its sign with
the top 23 mantissa bits, or `0x400000` where those are zero; an infinity narrows to the infinity of its sign; a single NaN
widens to a NaN of its sign with its mantissa at the top of the 52 bits. -/
def Obligations.NansAndInfinitiesConvert : Prop :=
  (∀ d : BitVec 64, classify .double d = .nan →
    classify .single (narrow d) = .nan ∧ (fields .single (narrow d)).sign = (fields .double d).sign ∧
    (fields .single (narrow d)).mantissa.toNat =
      if (fields .double d).mantissa.toNat / 2 ^ 29 = 0 then 0x400000 else (fields .double d).mantissa.toNat / 2 ^ 29) ∧
  narrow 0x7FF0000000000000#64 = 0x7F800000#32 ∧ narrow 0xFFF0000000000000#64 = 0xFF800000#32 ∧
  (∀ f : BitVec 32, classify .single f = .nan →
    classify .double (widen f) = .nan ∧ (fields .double (widen f)).sign = (fields .single f).sign ∧
    (fields .double (widen f)).mantissa.toNat = (fields .single f).mantissa.toNat * 2 ^ 29)

/-- 42_decoder.md R164, R166: the widened pattern denotes the same number as the single, or the same infinity, or no number. The
widening and the denoted numbers are PRESUMED by the spec from IEEE 754 (its G2, G3, G6; log entry 9). -/
def Obligations.WidenDenotesTheSame : Prop :=
  ∀ f : BitVec 32, denote .double (widen f) = denote .single f

/-- 42_decoder.md R173: narrowing undoes widening on every single pattern, whatever its class. -/
def Obligations.NarrowUndoesWiden : Prop :=
  ∀ f : BitVec 32, narrow (widen f) = f

/-! ### Round trips -/

/-- 42_decoder.md R171: at Double every value comes back from its string; at Single the widened narrowing comes back, which is the
value exactly when the value is in the image of the widening. -/
def Obligations.ValueStringValueRoundTrip : Prop :=
  (∀ v : Value, dec .double (enc .double v) = .ok v) ∧
  (∀ v : Value, dec .single (enc .single v) = .ok (widen (narrow v))) ∧
  (∀ v : Value, dec .single (enc .single v) = .ok v ↔ ∃ f : BitVec 32, v = widen f)

/-- 42_decoder.md R172: every valid string comes back from its value, at both precisions and for every class of pattern. -/
def Obligations.StringValueStringRoundTrip : Prop :=
  ∀ (p : Precision) (bits : List Chr), valid (widthOf p) bits = true →
    ∃ v, dec p bits = .ok v ∧ enc p v = bits

/-- 41_encoder.md R126, 42_decoder.md R171: the document's round-trip identity needs no more of a narrowing than R126, whatever it does
elsewhere: a value whose number the narrowed pattern denotes comes back from ENC and DEC at precision 32, and so do the two
zeros where their signs are kept. What a pattern denotes, and the widening, are log entry 9. -/
def Obligations.ExactNarrowingRoundTrips : Prop :=
  (∀ (nar : BitVec 64 → BitVec 32) (v : Value) (q : ℚ), q ≠ 0 →
    denote .double v = .number q → denote .single (nar v) = .number q →
    dec .single (encWith nar .single v) = .ok v) ∧
  (∀ nar : BitVec 64 → BitVec 32,
    (nar 0x8000000000000000#64 = 0x80000000#32 →
      dec .single (encWith nar .single 0x8000000000000000#64) = .ok 0x8000000000000000#64) ∧
    (nar 0x0000000000000000#64 = 0x00000000#32 →
      dec .single (encWith nar .single 0x0000000000000000#64) = .ok 0x0000000000000000#64))

/-- 41_encoder.md R134, 42_decoder.md R170: ENC.64 and DEC.64 lose nothing, DEC.64 reaches every value, DEC.32 is injective, and DEC
decodes every valid string. -/
def Obligations.CodecInjectivity : Prop :=
  (∀ v w : Value, enc .double v = enc .double w → v = w) ∧
  (∀ v : Value, ∃ bits, valid 64 bits = true ∧ dec .double bits = .ok v) ∧
  (∀ (p : Precision) (a b : List Chr) (v : Value), dec p a = .ok v → dec p b = .ok v → a = b) ∧
  (∀ (p : Precision) (bits : List Chr), valid (widthOf p) bits = true → ∃ v, dec p bits = .ok v)

/-! ### The block as a whole -/

/-- 30_encoding.md R70, 10_state.md R20: the step over the lanes and the typed `Exec` agree: every step answers, keeps the inputs, and
what the host reads off the lanes is `Exec` of the inputs. -/
def Obligations.StepRefinesTypedExec : Prop :=
  ∀ s : State, SafeStep s

/-- 10_state.md R34, 30_encoding.md R67, 60_exceptions.md R192: every step from a state that meets the interface invariant gives a state that
meets it: outputs settled, unused result bits zero, status one of three codes. -/
def Obligations.StepKeepsInterfaceInv : Prop :=
  ∀ s t : State, InterfaceInv s → step s = .next t → InterfaceInv t

/-- 10_state.md R34, 70_reset_and_hazards.md R220: the state after reset meets the invariant, and no result lane may be read in it. The lanes'
values at reset are the model's choice (log entry 5). -/
def Obligations.ResetMeetsInterfaceInv : Prop :=
  InterfaceInv State.reset ∧ ∀ l, mayRead State.reset l = false

/-- 10_state.md R20, 20_memory.md R50, 60_exceptions.md R196, 70_reset_and_hazards.md R224, R228: in every run from every state, each operation's
outcome and result are `Exec` of its own command word and operands, whatever came before, failures included. -/
def Obligations.RunsArePointwiseExec : Prop :=
  ∀ (s : State) (rs : List Inputs), runHost s rs = rs.map fun r => some (blockExec r)

/-- 30_encoding.md R67, R68, 93_implementation_defined.md U10: the outcome and the result depend on nothing but the command word and the selected
operation's operand bits: not on the other lanes, the unused high bits, the characters beyond the string, or the state before. -/
def Obligations.OnlyOperandsMatter : Prop :=
  ∀ (s s' t t' : State) (a b : Inputs), SameOperands a b →
    transact s a = .next t → transact s' b = .next t' →
    t.observed = t'.observed ∧ t.out.status = t'.out.status
end

