-- ==== Sys2Proof/Laws/BitString.lean ====
section
/-! SUPPORT. Strings and byte sequences: lengths, elements, and the two folds of parsing and reinterpretation. -/

namespace Sys2Proof.Machine

/-! ### Characters and rendering -/

/-- The two binary characters differ. -/
theorem ch0_ne_ch1 : Config.ch0 ≠ Config.ch1 := by decide

/-- A character is binary when it is one of the two. -/
theorem isBinary_iff (c : Chr) : isBinary c = true ↔ c = Config.ch0 ∨ c = Config.ch1 := by simp [isBinary]

/-- The character of a bit is binary. -/
theorem chrOfBit_binary (b : Bool) : chrOfBit b = Config.ch0 ∨ chrOfBit b = Config.ch1 := by cases b <;> simp [chrOfBit]

/-- A digit is 0 or 1. -/
theorem digit_le_one (c : Chr) : digit c ≤ 1 := by unfold digit; split <;> omega

/-- The digit of a bit's character is the bit. -/
@[simp] theorem digit_chrOfBit (b : Bool) : digit (chrOfBit b) = b.toNat := by cases b <;> decide

/-- A rendering has W characters. -/
theorem render_length (w : Nat) (raw : BitVec w) : (render w raw).length = w := by simp [render]

/-- Character i of a rendering is the character of bit W - 1 - i. -/
theorem render_getElem? (w : Nat) (raw : BitVec w) (i : Nat) :
    (render w raw)[i]? = if i < w then some (chrOfBit (raw.getLsbD (w - 1 - i))) else none := by
  unfold render
  by_cases h : i < w <;> simp [h]

/-- Validity as a statement about the characters. -/
theorem valid_iff (w : Nat) (bits : List Chr) :
    valid w bits = true ↔ bits.length = w ∧ ∀ c ∈ bits, c = Config.ch0 ∨ c = Config.ch1 := by
  simp [valid, isBinary_iff, List.all_eq_true]

/-- A rendering is a valid string. -/
theorem valid_render (w : Nat) (raw : BitVec w) : valid w (render w raw) = true := by
  rw [valid_iff]
  refine ⟨render_length w raw, fun c hc => ?_⟩
  simp only [render, List.mem_map] at hc
  obtain ⟨i, -, rfl⟩ := hc
  exact chrOfBit_binary _

/-! ### Parsing -/

/-- The parsing fold with an accumulator. -/
theorem foldl_digit (bits : List Chr) (acc : Nat) :
    bits.foldl (fun raw c => raw * 2 + digit c) acc =
      acc * 2 ^ bits.length + bits.foldl (fun raw c => raw * 2 + digit c) 0 := by
  induction bits generalizing acc with
  | nil => simp
  | cons c cs ih =>
    simp only [List.foldl_cons, List.length_cons]
    rw [ih, ih (0 * 2 + digit c)]
    ring

/-- The parsing fold stays below 2 to the number of characters. -/
theorem foldl_digit_lt (bits : List Chr) : bits.foldl (fun raw c => raw * 2 + digit c) 0 < 2 ^ bits.length := by
  induction bits with
  | nil => simp
  | cons c cs ih =>
    simp only [List.foldl_cons, List.length_cons]
    rw [foldl_digit]
    have := digit_le_one c
    have : (0 * 2 + digit c) * 2 ^ cs.length ≤ 1 * 2 ^ cs.length := Nat.mul_le_mul_right _ (by omega)
    rw [pow_succ]; omega

/-- Bit by bit, the parsing fold reads the characters from the left. -/
theorem foldl_digit_testBit (bits : List Chr) (i : Nat) (h : i < bits.length) :
    (bits.foldl (fun raw c => raw * 2 + digit c) 0).testBit (bits.length - 1 - i) =
      decide (bits[i]? = some Config.ch1) := by
  induction bits generalizing i with
  | nil => simp at h
  | cons c cs ih =>
    simp only [List.foldl_cons, List.length_cons]
    rw [foldl_digit]
    simp only [Nat.zero_mul, Nat.zero_add]
    rw [Nat.mul_comm, Nat.testBit_two_pow_mul_add _ (foldl_digit_lt cs)]
    cases i with
    | zero =>
      simp [digit]
      split <;> simp_all
    | succ j =>
      simp only [List.length_cons] at h
      rw [if_pos (by omega)]
      have := ih j (by omega)
      rw [show cs.length + 1 - 1 - (j+1) = cs.length - 1 - j by omega, this]
      simp

/-- Parsing a string of W characters does not wrap. -/
theorem parse_toNat {w : Nat} {bits : List Chr} (h : bits.length = w) :
    (parse w bits).toNat = bits.foldl (fun raw c => raw * 2 + digit c) 0 := by
  simp only [parse, BitVec.toNat_ofNat]
  exact Nat.mod_eq_of_lt (h ▸ foldl_digit_lt bits)

/-- Bit W - 1 - i of the parsed number is character i. -/
theorem parse_getLsbD {w : Nat} {bits : List Chr} (h : bits.length = w) {i : Nat} (hi : i < w) :
    (parse w bits).getLsbD (w - 1 - i) = decide (bits[i]? = some Config.ch1) := by
  rw [BitVec.getLsbD, parse_toNat h]
  subst h
  exact foldl_digit_testBit bits i hi

/-! ### String lanes -/

/-- The string the lanes state has the stated length. -/
theorem laneString_length (len : BitVec 8) (chr : Vector Chr 64) : (laneString len chr).length = len.toNat := by
  simp [laneString]

/-- A character below the stated length and below 64 is its lane. -/
theorem laneString_getElem? (len : BitVec 8) (chr : Vector Chr 64) {i : Nat} (hi : i < len.toNat) (h : i < 64) :
    (laneString len chr)[i]? = some chr[i] := by
  simp [laneString, hi, h]

/-- What ENC drives onto its lanes is read back. -/
theorem laneString_driven (str : List Chr) (h : str.length ≤ 64) :
    laneString (BitVec.ofNat 8 str.length) (Vector.ofFn fun lane : Fin 64 => (str[lane.val]?).getD 0#8) = str := by
  have hl : (BitVec.ofNat 8 str.length).toNat = str.length := by simp; omega
  apply List.ext_getElem?
  intro i
  by_cases hi : i < str.length
  · rw [laneString_getElem? _ _ (by omega) (by omega)]
    simp [hi]
  · rw [List.getElem?_eq_none (by rw [laneString_length]; omega), List.getElem?_eq_none (by omega)]

/-! ### Byte sequences -/

/-- The adapter answers exactly L bytes. -/
theorem intToBytes_length (n len : Nat) (h : 0 < len) : (intToBytes n len h).length = len := by simp [intToBytes]

/-- Byte j of the adapter's answer. -/
theorem intToBytes_getElem? (n len : Nat) (h : 0 < len) {j : Nat} (hj : j < len) :
    (intToBytes n len h)[j]? = some (BitVec.ofNat 8 (n >>> (8 * (len - 1 - j)))) := by
  simp [intToBytes, hj]

/-- The reinterpretation fold with an accumulator. -/
theorem foldl_byte (b : List Byte) (acc : Nat) :
    b.foldl (fun acc x => acc * 256 + x.toNat) acc =
      acc * 256 ^ b.length + b.foldl (fun acc x => acc * 256 + x.toNat) 0 := by
  induction b generalizing acc with
  | nil => simp
  | cons c cs ih =>
    simp only [List.foldl_cons, List.length_cons]
    rw [ih, ih (0 * 256 + c.toNat)]
    ring

/-- The reinterpretation fold stays below 256 to the number of bytes. -/
theorem foldl_byte_lt (b : List Byte) : b.foldl (fun acc x => acc * 256 + x.toNat) 0 < 256 ^ b.length := by
  induction b with
  | nil => simp
  | cons c cs ih =>
    simp only [List.foldl_cons, List.length_cons]
    rw [foldl_byte]
    have := c.isLt
    have : (0 * 256 + c.toNat) * 256 ^ cs.length ≤ 255 * 256 ^ cs.length := Nat.mul_le_mul_right _ (by omega)
    rw [pow_succ]; omega

/-- Folding the k big-endian slices of a number gives its k low bytes. -/
theorem foldl_slices (n k : Nat) :
    ((List.range k).map fun j => BitVec.ofNat 8 (n >>> (8 * (k - 1 - j)))).foldl (fun acc x => acc * 256 + x.toNat) 0
      = n % 256 ^ k := by
  induction k with
  | zero => simp [Nat.mod_one]
  | succ k ih =>
    rw [List.range_succ_eq_map]
    simp only [List.map_cons, List.map_map, List.foldl_cons]
    rw [foldl_byte]
    have : ((fun j => BitVec.ofNat 8 (n >>> (8 * (k + 1 - 1 - j)))) ∘ Nat.succ) =
        fun j => BitVec.ofNat 8 (n >>> (8 * (k - 1 - j))) := by
      funext j; simp only [Function.comp]; congr 3; omega
    rw [this, ih]
    simp only [List.length_map, List.length_range, BitVec.toNat_ofNat, Nat.shiftRight_eq_div_pow]
    have hm := Nat.mod_mul (x := n) (a := 256 ^ k) (b := 256)
    rw [pow_succ 256 k, hm, show k + 1 - 1 - 0 = k by omega, pow_mul, show (2 : Nat) ^ 8 = 256 from rfl, Nat.zero_mul,
      Nat.zero_add, Nat.mul_comm (n / 256 ^ k % 256), Nat.add_comm]

end Sys2Proof.Machine
end

