-- ==== Sys2Proof/Laws/Decode.lean ====
section
/-! SUPPORT. The decoder by fields, the decoder by table, and the table's rows. -/

namespace Sys2Proof

/-- No two rows of the opcode table match one word. -/
theorem opcodeTable_unambiguous :
    opcodeTable.Pairwise (fun a b => ∀ cmd : Cmd, (a.matchesWord cmd && b.matchesWord cmd) = false) := by
  decide

/-- The decoder "written from this table alone" and the decoder by fields agree on all 512 words (30_encoding.md R65). -/
theorem decodeByTable_eq_decode :
    ∀ cmd : Cmd, decodeByTable cmd = (match decode cmd with | .ok i => some i | .error _ => none) := by
  decide

/-- `precOf` says which numbers select a precision. -/
theorem precOf_cases (x : BitVec 7) :
    (x = 32#7 ∧ precOf x = .ok .single) ∨ (x = 64#7 ∧ precOf x = .ok .double) ∨
    (x ≠ 32#7 ∧ x ≠ 64#7 ∧ precOf x = .error .precisionMismatch) := by
  unfold precOf
  split
  · exact .inl ⟨‹_›, rfl⟩
  · split
    · exact .inr (.inl ⟨‹_›, rfl⟩)
    · exact .inr (.inr ⟨‹_›, ‹_›, rfl⟩)

/-- An instruction is the one of its own unit and precision. -/
@[simp] theorem Instr.of_op_precision (i : Instr) : Instr.of i.op i.precision = i := by
  cases i <;> rfl

@[simp] theorem Instr.op_of (o : Op) (p : Precision) : (Instr.of o p).op = o := by
  cases o <;> cases p <;> rfl

@[simp] theorem Instr.precision_of (o : Op) (p : Precision) : (Instr.of o p).precision = p := by
  cases o <;> cases p <;> rfl

/-- A word that decodes has a supported precision, and is the instruction of its fields. -/
theorem decode_ok {cmd : Cmd} {i : Instr} (h : decode cmd = .ok i) :
    precOf (cmdPrec cmd) = .ok i.precision ∧ opOf (cmdOp cmd) = i.op := by
  unfold decode at h
  split at h
  · cases h
  · cases h
    simp [*]

/-- A word that does not decode is rejected for its precision. -/
theorem decode_error {cmd : Cmd} {f : Failure} (h : decode cmd = .error f) :
    f = .precisionMismatch ∧ precOf (cmdPrec cmd) = .error .precisionMismatch := by
  unfold decode at h
  split at h
  · rename_i g hg
    cases h
    rcases precOf_cases (cmdPrec cmd) with ⟨_, hp⟩ | ⟨_, hp⟩ | ⟨_, _, hp⟩
    · rw [hp] at hg; cases hg
    · rw [hp] at hg; cases hg
    · rw [hp] at hg
      cases hg
      exact ⟨rfl, hp⟩
  · cases h

end Sys2Proof
end

