-- ==== Sys2Proof/Laws/Layout.lean ====
section
/-! SUPPORT. Selecting fields and joining them, as arithmetic on the pattern's number. -/

namespace Sys2Proof.Machine

/-- The fields of a single pattern, bit by bit of the lane. -/
theorem fields_single (raw : BitVec 32) :
    fields .single raw =
      { sign := raw.extractLsb' 31 1, exponent := raw.extractLsb' 23 8, mantissa := raw.extractLsb' 0 23 } := rfl

/-- The fields of a double pattern. -/
theorem fields_double (raw : BitVec 64) :
    fields .double raw =
      { sign := raw.extractLsb' 63 1, exponent := raw.extractLsb' 52 11, mantissa := raw.extractLsb' 0 52 } := rfl

/-- The number of a joined single pattern. -/
theorem join_single_toNat (s : BitVec 1) (e : BitVec 8) (m : BitVec 23) :
    (join .single ⟨s, e, m⟩).toNat = s.toNat * 2 ^ 31 + e.toNat * 2 ^ 23 + m.toNat := by
  have h1 := e.isLt
  have h2 := m.isLt
  simp only [join, BitVec.toNat_cast, BitVec.toNat_append]
  rw [← Nat.shiftLeft_add_eq_or_of_lt h1, ← Nat.shiftLeft_add_eq_or_of_lt h2]
  simp only [Nat.shiftLeft_eq]
  omega

/-- The number of a joined double pattern. -/
theorem join_double_toNat (s : BitVec 1) (e : BitVec 11) (m : BitVec 52) :
    (join .double ⟨s, e, m⟩).toNat = s.toNat * 2 ^ 63 + e.toNat * 2 ^ 52 + m.toNat := by
  have h1 := e.isLt
  have h2 := m.isLt
  simp only [join, BitVec.toNat_cast, BitVec.toNat_append]
  rw [← Nat.shiftLeft_add_eq_or_of_lt h1, ← Nat.shiftLeft_add_eq_or_of_lt h2]
  simp only [Nat.shiftLeft_eq]
  omega

end Sys2Proof.Machine
end

