-- ==== Sys2Proof/Laws/Numeric.lean ====
section
/-! SUPPORT. Narrowing, widening and what a triple denotes: one lemma per arm. -/

namespace Sys2Proof.Machine

/-! ### The layout's derived constant -/

/-- EMAX at Single. -/
@[simp] theorem expMaxOf_single : expMaxOf .single = 255 := rfl

/-- EMAX at Double. -/
@[simp] theorem expMaxOf_double : expMaxOf .double = 2047 := rfl

/-! ### Narrowing -/

/-- A finite double narrows by its magnitude, sign kept. -/
theorem narrow_of_finite {d : BitVec 64} (h : (fields .double d).exponent.toNat ≠ 2047) :
    narrow d =
      BitVec.ofNat 32 ((fields .double d).sign.toNat * 2 ^ 31 +
        narrowMagnitude (fields .double d).exponent.toNat (fields .double d).mantissa.toNat) := by
  have : (fields .double d).exponent ≠ 2047#11 := fun h' => h (by rw [h']; rfl)
  simp only [narrow, this, if_false]

/-- Rounding, with the power of two written as a power. -/
theorem roundOff_eq (sig k : Nat) :
    roundOff sig k =
      sig / 2 ^ k + if sig % 2 ^ k > 2 ^ (k - 1) ∨ (sig % 2 ^ k = 2 ^ (k - 1) ∧ sig / 2 ^ k % 2 = 1) then 1 else 0 := by
  simp only [roundOff, Nat.shiftRight_eq_div_pow, Nat.shiftLeft_eq, Nat.one_mul]

/-- Dropping zero bits rounds nothing. -/
theorem roundOff_exact {n k : Nat} : roundOff (n * 2 ^ k) k = n := by
  have : 0 < 2 ^ (k - 1) := by positivity
  simp only [roundOff, Nat.shiftRight_eq_div_pow, Nat.shiftLeft_eq, Nat.one_mul, Nat.mul_mod_left]
  rw [Nat.mul_div_cancel _ (by positivity)]
  simp; omega

/-- Rounding answers a nearest multiple of `2^k`, and of two nearest the one with an even quotient (41_encoder.md R127). -/
theorem roundOff_nearest (sig k n : Nat) (hk : 0 < k) :
    ((sig : ℤ) - (roundOff sig k * 2 ^ k : Nat)).natAbs ≤ ((sig : ℤ) - (n * 2 ^ k : Nat)).natAbs ∧
    (n ≠ roundOff sig k →
      ((sig : ℤ) - (n * 2 ^ k : Nat)).natAbs = ((sig : ℤ) - (roundOff sig k * 2 ^ k : Nat)).natAbs →
      roundOff sig k % 2 = 0) := by
  have hP : 2 ^ k = 2 * 2 ^ (k - 1) := by rw [← pow_succ', show k - 1 + 1 = k by omega]
  have hdm : sig = 2 ^ k * (sig / 2 ^ k) + sig % 2 ^ k := (Nat.div_add_mod _ _).symm
  have hlt : sig % 2 ^ k < 2 ^ k := Nat.mod_lt _ (by positivity)
  rw [roundOff_eq]
  generalize sig / 2 ^ k = keep at *
  generalize sig % 2 ^ k = rem at *
  generalize 2 ^ (k - 1) = half at *
  generalize 2 ^ k = P at *
  subst hdm
  rcases lt_trichotomy n keep with h | h | h
  · have h1 : n * P + P ≤ P * keep := by
      calc n * P + P = P * (n + 1) := by ring
        _ ≤ P * keep := Nat.mul_le_mul_left _ h
    split
    · have : (keep + 1) * P = P * keep + P := by ring
      rw [this]; generalize n * P = nP at *; generalize P * keep = kP at *; omega
    · have : (keep + 0) * P = P * keep := by ring
      rw [this]; generalize n * P = nP at *; generalize P * keep = kP at *; omega
  · subst h
    have h1 : n * P = P * n := by ring
    split
    · have : (n + 1) * P = P * n + P := by ring
      rw [this, h1]; generalize P * n = nP at *; omega
    · have : (n + 0) * P = P * n := by ring
      rw [this, h1]; generalize P * n = nP at *; omega
  · have h1 : P * keep + P ≤ n * P := by
      calc P * keep + P = P * (keep + 1) := by ring
        _ ≤ P * n := Nat.mul_le_mul_left _ h
        _ = n * P := by ring
    have h2 : n ≠ keep + 1 → P * keep + 2 * P ≤ n * P := by
      intro hne
      calc P * keep + 2 * P = P * (keep + 2) := by ring
        _ ≤ P * n := Nat.mul_le_mul_left _ (by omega)
        _ = n * P := by ring
    split
    · have : (keep + 1) * P = P * keep + P := by ring
      rw [this]; generalize n * P = nP at *; generalize P * keep = kP at *; omega
    · have : (keep + 0) * P = P * keep := by ring
      rw [this]; generalize n * P = nP at *; generalize P * keep = kP at *; omega

/-- A double whose low 29 mantissa bits are zero and whose exponent is a single normal's narrows exactly (42_decoder.md R173). -/
theorem narrowMagnitude_normal {E M : Nat} (h1 : 1 ≤ E) (h2 : E ≤ 254) (hM : M < 2 ^ 23) :
    narrowMagnitude (E + 896) (M <<< 29) = E * 2 ^ 23 + M := by
  have h3 : significand (E + 896) (M <<< 29) = (2^23 + M) * 2 ^ 29 := by
    simp only [significand, Nat.shiftLeft_eq]; rw [if_neg (by omega)]; omega
  have h4 : effectiveExponent (E + 896) = E + 896 := by simp [effectiveExponent]
  have h5 : narrowShift (E + 896) = 29 := by rw [narrowShift, if_pos (by omega)]
  have h6 : narrowBase (E + 896) = (E - 1) * 2 ^ 23 := by rw [narrowBase, if_pos (by omega), show E + 896 - 897 = E - 1 by omega]
  simp only [narrowMagnitude, h3, h4, h5, h6, roundOff_exact]
  rw [if_neg (by omega)]
  omega

/-- The double of a single subnormal narrows back to it (42_decoder.md R173). -/
theorem narrowMagnitude_subnormal {M : Nat} (h0 : M ≠ 0) (hM : M < 2 ^ 23) :
    narrowMagnitude (Nat.log2 M + 874) ((M - 2 ^ Nat.log2 M) <<< (52 - Nat.log2 M)) = M := by
  have hh : Nat.log2 M < 23 := (Nat.log2_lt h0).mpr hM
  have hle : 2 ^ Nat.log2 M ≤ M := Nat.log2_self_le h0
  generalize Nat.log2 M = h at *
  have h3 : significand (h + 874) ((M - 2 ^ h) <<< (52 - h)) = M * 2 ^ (52 - h) := by
    simp only [significand, Nat.shiftLeft_eq]
    rw [if_neg (by omega), Nat.sub_mul, ← pow_add, show h + (52 - h) = 52 by omega]
    have : 2 ^ 52 ≤ M * 2 ^ (52 - h) := by
      calc 2 ^ 52 = 2 ^ h * 2 ^ (52 - h) := by rw [← pow_add]; congr 1; omega
        _ ≤ _ := Nat.mul_le_mul_right _ hle
    omega
  have h4 : effectiveExponent (h + 874) = h + 874 := by simp [effectiveExponent]
  have h5 : narrowShift (h + 874) = 52 - h := by rw [narrowShift, if_neg (by omega)]; omega
  have h6 : narrowBase (h + 874) = 0 := by rw [narrowBase, if_neg (by omega)]
  simp only [narrowMagnitude, h3, h4, h5, h6, roundOff_exact]
  rw [if_neg (by omega)]
  omega

/-- Zero narrows to zero. -/
theorem narrowMagnitude_zero : narrowMagnitude 0 0 = 0 := by
  have : roundOff (0 * 2 ^ 925) 925 = 0 := roundOff_exact
  rw [Nat.zero_mul] at this
  have h5 : narrowShift 1 = 925 := by decide
  simp only [narrowMagnitude, effectiveExponent, significand, if_true, h5, this]
  decide

/-! ### Widening -/

/-- The widened mantissa of a single subnormal fits 52 bits (42_decoder.md R166). -/
theorem sub_shift_lt {M : Nat} (h0 : M ≠ 0) (hM : M < 2 ^ 23) :
    (M - 2 ^ Nat.log2 M) <<< (52 - Nat.log2 M) < 2 ^ 52 := by
  have hh : Nat.log2 M < 23 := (Nat.log2_lt h0).mpr hM
  have hlt : M < 2 ^ (Nat.log2 M + 1) := Nat.lt_log2_self
  generalize Nat.log2 M = h at *
  rw [Nat.shiftLeft_eq]
  calc (M - 2 ^ h) * 2 ^ (52 - h) < 2 ^ h * 2 ^ (52 - h) := by
        apply Nat.mul_lt_mul_of_pos_right _ (by positivity)
        rw [pow_succ] at hlt
        have : 0 < 2 ^ h := by positivity
        omega
    _ = 2 ^ 52 := by rw [← pow_add]; congr 1; omega

/-! ### What a finite triple denotes, as significand times power -/

/-- A power of two over a power of two. -/
theorem zpow_sub_nat (k : ℤ) (n : ℕ) : (2:ℚ) ^ (k - n) = 2 ^ k / 2 ^ n := by
  rw [zpow_sub₀ (by norm_num), zpow_natCast]

/-- A finite double denotes its significand times `2^(Ee - 1075)` (41_encoder.md R127). -/
theorem denote_double_finite (s : BitVec 1) (e : BitVec 11) (m : BitVec 52) (he : e.toNat ≠ 2047) :
    FieldTriple.denote (p := .double) ⟨s, e, m⟩ =
      .number (signFactor s * ((significand e.toNat m.toNat : ℚ) * 2 ^ ((effectiveExponent e.toNat : ℤ) - 1075))) := by
  have hz : ∀ k : ℤ, (2:ℚ) ^ (k - 1075) = 2 ^ (k - 1023) / 2 ^ 52 := by
    intro k; rw [← zpow_sub_nat]; congr 1; push_cast; ring
  simp only [FieldTriple.denote, FieldTriple.classify, expMaxOf_double, significand, effectiveExponent, hz]
  by_cases h0 : e.toNat = 0
  · simp only [h0, if_true]
    by_cases hm : m.toNat = 0
    · simp only [hm, if_true, Nat.cast_zero, zero_mul, mul_zero]
    · simp only [hm, if_false]
      congr 1
      push_cast; ring
  · simp only [h0, he, if_false]
    congr 1
    push_cast; ring

/-- A finite single denotes its significand times `2^(Ee - 150)`. -/
theorem denote_single_finite (s : BitVec 1) (e : BitVec 8) (m : BitVec 23) (he : e.toNat ≠ 255) :
    FieldTriple.denote (p := .single) ⟨s, e, m⟩ =
      .number (signFactor s *
        (((if e.toNat = 0 then m.toNat else 2 ^ 23 + m.toNat : ℕ) : ℚ) * 2 ^ ((effectiveExponent e.toNat : ℤ) - 150))) := by
  have hz : ∀ k : ℤ, (2:ℚ) ^ (k - 150) = 2 ^ (k - 127) / 2 ^ 23 := by
    intro k; rw [← zpow_sub_nat]; congr 1; push_cast; ring
  simp only [FieldTriple.denote, FieldTriple.classify, expMaxOf_single, effectiveExponent, hz]
  by_cases h0 : e.toNat = 0
  · simp only [h0, if_true]
    by_cases hm : m.toNat = 0
    · simp only [hm, if_true, Nat.cast_zero, zero_mul, mul_zero]
    · simp only [hm, if_false]
      congr 1
      push_cast; ring
  · simp only [h0, he, if_false]
    congr 1
    push_cast; ring

/-! ### A non-zero number has one double pattern -/

/-- Significand and exponent of a finite double are determined by its scaled significand, unless that is 0. -/
theorem significand_scaled_injective {e m e' m' : Nat} (hm : m < 2 ^ 52) (hm' : m' < 2 ^ 52)
    (h : significand e m * 2 ^ (effectiveExponent e - 1) = significand e' m' * 2 ^ (effectiveExponent e' - 1))
    (hn : significand e m ≠ 0) : e = e' ∧ m = m' := by
  wlog hle : effectiveExponent e ≤ effectiveExponent e' generalizing e m e' m'
  · have hn' : significand e' m' ≠ 0 := by
      intro h0; rw [h0, Nat.zero_mul] at h
      exact (Nat.mul_ne_zero hn (by positivity)) h
    obtain ⟨a, b⟩ := this hm' hm h.symm hn' (by omega)
    exact ⟨a.symm, b.symm⟩
  have hp : 1 ≤ effectiveExponent e := by unfold effectiveExponent; split <;> omega
  obtain ⟨k, hk⟩ := Nat.exists_eq_add_of_le hle
  rw [show effectiveExponent e' - 1 = k + (effectiveExponent e - 1) by omega, pow_add, ← Nat.mul_assoc] at h
  have h2 := Nat.eq_of_mul_eq_mul_right (by positivity) h
  have hlt : significand e m < 2 ^ 53 := by unfold significand; split <;> omega
  cases k with
  | zero =>
    rw [pow_zero, Nat.mul_one] at h2
    unfold significand at h2; unfold effectiveExponent at hk
    split at h2 <;> split at h2 <;> simp_all <;> omega
  | succ k =>
    exfalso
    have he' : e' ≠ 0 := by
      intro h0; subst h0; simp [effectiveExponent] at hk; unfold effectiveExponent at hp; split at hk <;> omega
    have : 2 ^ 52 ≤ significand e' m' := by unfold significand; rw [if_neg he']; omega
    have h3 : 2 ^ 52 * 2 ≤ significand e' m' * 2 ^ (k+1) := Nat.mul_le_mul this (by
      calc 2 = 2 ^ 1 := rfl
        _ ≤ _ := Nat.pow_le_pow_right (by decide) (by omega))
    omega

/-- A double that denotes a number is finite. -/
theorem finite_of_denote_number {v : BitVec 64} {q : ℚ} (h : denote .double v = .number q) :
    (fields .double v).exponent.toNat ≠ 2047 := by
  intro he
  simp only [denote, FieldTriple.denote, FieldTriple.classify, he, expMaxOf_double] at h
  by_cases hm : (fields .double v).mantissa.toNat = 0 <;> simp [hm] at h

/-- A double is determined by its fields. -/
theorem fields_double_injective {v w : BitVec 64} (h : fields .double v = fields .double w) : v = w := by
  rw [fields_double, fields_double] at h
  simp only [FieldTriple.mk.injEq] at h
  obtain ⟨a, b, c⟩ := h
  have a := congrArg BitVec.toNat a
  have b := congrArg BitVec.toNat b
  have c := congrArg BitVec.toNat c
  simp only [BitVec.extractLsb'_toNat, Nat.shiftRight_eq_div_pow, manWidthOf, expWidthOf] at a b c
  apply BitVec.eq_of_toNat_eq
  have := v.isLt; have := w.isLt
  omega

/-- A non-zero number is denoted by at most one double. -/
theorem denote_double_injective {v w : BitVec 64} {q : ℚ} (hq : q ≠ 0) (hv : denote .double v = .number q)
    (hw : denote .double w = .number q) : v = w := by
  have fv := finite_of_denote_number hv; have fw := finite_of_denote_number hw
  apply fields_double_injective
  unfold denote at hv hw
  rcases h1 : fields .double v with ⟨s, e, m⟩
  rcases h2 : fields .double w with ⟨s', e', m'⟩
  rw [h1] at hv fv; rw [h2] at hw fw
  rw [denote_double_finite _ _ _ fv] at hv
  rw [denote_double_finite _ _ _ fw] at hw
  simp only [Denoted.number.injEq] at hv hw
  have hm : m.toNat < 2 ^ 52 := m.isLt
  have hm' : m'.toNat < 2 ^ 52 := m'.isLt
  have e1 : ∀ x : Nat, 1 ≤ effectiveExponent x := by intro x; unfold effectiveExponent; split <;> omega
  have conv : ∀ x y : Nat, (significand x y : ℚ) * 2 ^ ((effectiveExponent x : ℤ) - 1075) =
      ((significand x y * 2 ^ (effectiveExponent x - 1) : ℕ) : ℚ) * 2 ^ (-1074 : ℤ) := by
    intro x y
    push_cast
    rw [mul_assoc, ← zpow_natCast, ← zpow_add₀ (by norm_num)]
    congr 2
    have := e1 x
    omega
  rw [conv] at hv hw
  have hpos : (0:ℚ) < 2 ^ (-1074 : ℤ) := by positivity
  generalize (2:ℚ) ^ (-1074 : ℤ) = c at *
  set A := significand e.toNat m.toNat * 2 ^ (effectiveExponent e.toNat - 1)
  set B := significand e'.toNat m'.toNat * 2 ^ (effectiveExponent e'.toNat - 1)
  have hA0 : A ≠ 0 := by intro h; rw [h] at hv; simp at hv; exact hq hv.symm
  have hB0 : B ≠ 0 := by intro h; rw [h] at hw; simp at hw; exact hq hw.symm
  have hAp : (0:ℚ) < A := by exact_mod_cast Nat.pos_of_ne_zero hA0
  have hBp : (0:ℚ) < B := by exact_mod_cast Nat.pos_of_ne_zero hB0
  have hxA : 0 < (A:ℚ) * c := by positivity
  have hxB : 0 < (B:ℚ) * c := by positivity
  have key : s = s' ∧ A = B := by
    unfold signFactor at hv hw
    have bits : ∀ t : BitVec 1, t = 1#1 ∨ t = 0#1 := by decide
    rcases bits s with rfl | rfl <;> rcases bits s' with rfl | rfl <;> simp at hv hw ⊢
    · have : (A:ℚ) * c = B * c := by linarith
      exact_mod_cast mul_right_cancel₀ hpos.ne' this
    · linarith
    · linarith
    · have : (A:ℚ) * c = B * c := by linarith
      exact_mod_cast mul_right_cancel₀ hpos.ne' this
  obtain ⟨rfl, hAB⟩ := key
  have hn : significand e.toNat m.toNat ≠ 0 := fun h => hA0 (by simp [A, h])
  obtain ⟨a, b⟩ := significand_scaled_injective hm hm' hAB hn
  rw [BitVec.eq_of_toNat_eq a, BitVec.eq_of_toNat_eq b]

end Sys2Proof.Machine
end

