-- ==== Sys2Proof/Laws/State.lean ====
section
/-! SUPPORT. One lemma per field per update of the state and its lanes, each true by rfl. -/

namespace Sys2Proof.Machine

/-! ### present -/
@[simp] theorem State.present_inp (s : State) (r : Inputs) : (s.present r).inp = r := rfl
@[simp] theorem State.present_out (s : State) (r : Inputs) : (s.present r).out = s.out := rfl
@[simp] theorem State.present_freeCount (s : State) (r : Inputs) : (s.present r).freeCount = s.freeCount := rfl

/-! ### settle -/
@[simp] theorem State.settle_inp (s : State) (o : Outputs) : (s.settle o).inp = s.inp := rfl
@[simp] theorem State.settle_out (s : State) (o : Outputs) : (s.settle o).out = o := rfl
@[simp] theorem State.settle_freeCount (s : State) (o : Outputs) : (s.settle o).freeCount = s.freeCount + 1 := rfl

/-! ### withFetchWord -/
@[simp] theorem State.withFetchWord_cmd (s : State) (n w : Nat) :
    (s.withFetchWord n w).inp.cmd = BitVec.ofNat 9 w := rfl
@[simp] theorem State.withFetchWord_valIn (s : State) (n w : Nat) : (s.withFetchWord n w).inp.valIn = s.inp.valIn := rfl
@[simp] theorem State.withFetchWord_strInLen (s : State) (n w : Nat) :
    (s.withFetchWord n w).inp.strInLen = s.inp.strInLen := rfl
@[simp] theorem State.withFetchWord_strInChr (s : State) (n w : Nat) :
    (s.withFetchWord n w).inp.strInChr = s.inp.strInChr := rfl
@[simp] theorem State.withFetchWord_rawIn (s : State) (n w : Nat) : (s.withFetchWord n w).inp.rawIn = s.inp.rawIn := rfl
@[simp] theorem State.withFetchWord_signIn (s : State) (n w : Nat) :
    (s.withFetchWord n w).inp.signIn = s.inp.signIn := rfl
@[simp] theorem State.withFetchWord_expIn (s : State) (n w : Nat) : (s.withFetchWord n w).inp.expIn = s.inp.expIn := rfl
@[simp] theorem State.withFetchWord_manIn (s : State) (n w : Nat) : (s.withFetchWord n w).inp.manIn = s.inp.manIn := rfl
@[simp] theorem State.withFetchWord_out (s : State) (n w : Nat) : (s.withFetchWord n w).out = s.out := rfl
@[simp] theorem State.withFetchWord_freeCount (s : State) (n w : Nat) :
    (s.withFetchWord n w).freeCount = s.freeCount := rfl

/-! ### the driven lanes, and `status`, which no result lane's drive touches -/
@[simp] theorem Outputs.undriven_status (c : BitVec 2) (n : Nat) : (Outputs.undriven c n).status = c := rfl

@[simp] theorem Outputs.driveString_status (str : List Chr) (o : Outputs) : (o.driveString str).status = o.status := rfl
@[simp] theorem Outputs.driveString_strOutLen (str : List Chr) (o : Outputs) :
    (o.driveString str).strOutLen = BitVec.ofNat 8 str.length := rfl
@[simp] theorem Outputs.driveString_strOutChr (str : List Chr) (o : Outputs) :
    (o.driveString str).strOutChr = Vector.ofFn fun lane => (str[lane.val]?).getD 0#8 := rfl

@[simp] theorem Outputs.driveValue_status (v : Value) (o : Outputs) : (o.driveValue v).status = o.status := rfl
@[simp] theorem Outputs.driveValue_valOut (v : Value) (o : Outputs) : (o.driveValue v).valOut = v := rfl

@[simp] theorem Outputs.driveFields_status (p : Precision) (t : FieldTriple p) (e : BitVec 12) (o : Outputs) :
    (o.driveFields p t e).status = o.status := rfl
@[simp] theorem Outputs.driveFields_signOut (p : Precision) (t : FieldTriple p) (e : BitVec 12) (o : Outputs) :
    (o.driveFields p t e).signOut = t.sign := rfl
@[simp] theorem Outputs.driveFields_expOut (p : Precision) (t : FieldTriple p) (e : BitVec 12) (o : Outputs) :
    (o.driveFields p t e).expOut = t.exponent.setWidth 11 := rfl
@[simp] theorem Outputs.driveFields_manOut (p : Precision) (t : FieldTriple p) (e : BitVec 12) (o : Outputs) :
    (o.driveFields p t e).manOut = t.mantissa.setWidth 52 := rfl
@[simp] theorem Outputs.driveFields_eunbOut (p : Precision) (t : FieldTriple p) (e : BitVec 12) (o : Outputs) :
    (o.driveFields p t e).eunbOut = e := rfl

@[simp] theorem Outputs.driveRaw_status (p : Precision) (r : RawBits p) (o : Outputs) :
    (o.driveRaw p r).status = o.status := rfl
@[simp] theorem Outputs.driveRaw_rawOut (p : Precision) (r : RawBits p) (o : Outputs) :
    (o.driveRaw p r).rawOut = r.setWidth 64 := rfl

end Sys2Proof.Machine
end

