-- ==== Sys2Proof/Laws/Ops.lean ====
section
/-! SUPPORT. Everything the shared operations can do, said once: completing, failing, and the four units on the lanes. -/

namespace Sys2Proof.Machine

/-- Completing answers one next state: inputs kept, `status` and the result lanes as driven. -/
theorem complete_next {drive : Outputs → Outputs} {s t : State} (h : complete drive s = .next t) :
    t.inp = s.inp ∧ t.out = drive (Outputs.undriven Config.statusOk s.freeCount) ∧ t.freeCount = s.freeCount + 1 := by
  cases h
  exact ⟨rfl, rfl, rfl⟩

/-- Failing answers one next state: inputs kept, `status` the failure's code, no result lane driven. -/
theorem fail_next {f : Failure} {s t : State} (h : fail f s = .next t) :
    t.inp = s.inp ∧ t.out = Outputs.undriven (failureCode f) s.freeCount ∧ t.freeCount = s.freeCount + 1 := by
  cases h
  exact ⟨rfl, rfl, rfl⟩

/-- DEC on a valid string completes with the decoded value. -/
theorem runDec_of_valid {p : Precision} {s : State} (h : valid (widthOf p) (readString s.inp) = true) :
    runDec p s =
      complete (Outputs.driveValue (toValue p (reinterpret p (parse (widthOf p) (readString s.inp))))) s := by
  simp [runDec, dec, h]

/-- DEC on any other string fails with InvalidBitString. -/
theorem runDec_of_not_valid {p : Precision} {s : State} (h : valid (widthOf p) (readString s.inp) = false) :
    runDec p s = fail .invalidBitString s := by
  simp [runDec, dec, h]

/-- Every meaning is its unit at its precision. -/
theorem exec_eq_unit (i : Instr) (s : State) :
    exec i s =
      match i.op with
      | .enc => runEnc i.precision s
      | .dec => runDec i.precision s
      | .dcp => runDcp i.precision s
      | .asm => runAsm i.precision s := by
  cases i <;> rfl

/-- A step either runs the decoded instruction or fails for the precision. -/
theorem step_cases (s : State) :
    (∃ i, decode s.inp.cmd = .ok i ∧ step s = exec i s) ∨
    (∃ f, decode s.inp.cmd = .error f ∧ step s = fail f s) := by
  unfold step
  split
  · exact .inl ⟨_, ‹_›, rfl⟩
  · exact .inr ⟨_, ‹_›, rfl⟩

end Sys2Proof.Machine
end

