-- ==== Sys2Proof/Laws/PerInstr.lean ====
section
/-! SUPPORT. Per instruction: the two fields of its command word (30_encoding.md R61 to R65). -/

namespace Sys2Proof.Laws.CommandFields

/-- An instruction's word carries its unit's `op` value above the width of its precision, and the command is well formed. -/
def Statement (i : Instr) : Prop :=
  cmdOp (encode i) = i.op.code ∧ (cmdPrec (encode i)).toNat = Machine.widthOf i.precision ∧ i.wf = true

theorem enc32 : Statement .enc32 := ⟨rfl, rfl, rfl⟩
theorem enc64 : Statement .enc64 := ⟨rfl, rfl, rfl⟩
theorem dec32 : Statement .dec32 := ⟨rfl, rfl, rfl⟩
theorem dec64 : Statement .dec64 := ⟨rfl, rfl, rfl⟩
theorem dcp32 : Statement .dcp32 := ⟨rfl, rfl, rfl⟩
theorem dcp64 : Statement .dcp64 := ⟨rfl, rfl, rfl⟩
theorem asm32 : Statement .asm32 := ⟨rfl, rfl, rfl⟩
theorem asm64 : Statement .asm64 := ⟨rfl, rfl, rfl⟩

end Sys2Proof.Laws.CommandFields
end

