-- ==== Sys2Proof/Tests/Slice0.lean ====
section
/-! SUPPORT. Tests of single steps against the spec's own vectors (95_test_vectors.md, named in each comment), the
well-formedness smoke test, decoding of words written out bit by bit, and a witness for every statement's hypotheses. -/

namespace Sys2Proof.Tests

open Sys2Proof.Machine

/-- The character codes of a string literal. -/
def chars (s : String) : List Chr := s.toList.map fun c => BitVec.ofNat 8 c.toNat

/-- Input lanes that present a command and a string; the character lanes past the string hold 0xFF. -/
def strIn (cmd : Cmd) (str : List Chr) : Inputs :=
  { Inputs.reset with
    cmd := cmd, strInLen := BitVec.ofNat 8 str.length, strInChr := Vector.ofFn fun i => (str[i.val]?).getD 0xFF#8 }

/-- Input lanes that present a command and a value. -/
def valIn (cmd : Cmd) (v : Value) : Inputs := { Inputs.reset with cmd := cmd, valIn := v }

/-- Input lanes that present a command and a raw pattern. -/
def rawIn (cmd : Cmd) (raw : BitVec 64) : Inputs := { Inputs.reset with cmd := cmd, rawIn := raw }

/-- Input lanes that present a command and a field triple. -/
def fieldsIn (cmd : Cmd) (s : BitVec 1) (e : BitVec 11) (m : BitVec 52) : Inputs :=
  { Inputs.reset with cmd := cmd, signIn := s, expIn := e, manIn := m }

/-- The output lanes after one transaction from reset. -/
def outputsOf (i : Inputs) : Option Outputs :=
  match transact State.reset i with
  | .next t => some t.out
  | .fault _ => none
  | .refused _ => none

/-- The source's 32-character string of 12.25 (vector S1). -/
def g32 : List Chr := chars "01000001010001000000000000000000"

/-! ### Well-formedness: the one check, and ill-formed terms it refuses (R63, R71; K9 to K12) -/

theorem test_wf_accepts : (Command.mk .enc 32#7).wf = true ∧ (Command.mk .asm 64#7).wf = true := by decide
theorem test_wf_refuses_16 : (Command.mk .dec 16#7).wf = false := by decide
theorem test_wf_refuses_both_bits : (Command.mk .enc 96#7).wf = false := by decide

/-! ### Decoding (30_encoding.md R65; K1 to K16) -/

theorem test_decode_enc32 : decode 0b000100000#9 = .ok .enc32 := by decide
theorem test_decode_enc64 : decode 0b001000000#9 = .ok .enc64 := by decide
theorem test_decode_dec32 : decode 0b010100000#9 = .ok .dec32 := by decide
theorem test_decode_dec64 : decode 0b011000000#9 = .ok .dec64 := by decide
theorem test_decode_dcp32 : decode 0b100100000#9 = .ok .dcp32 := by decide
theorem test_decode_dcp64 : decode 0b101000000#9 = .ok .dcp64 := by decide
theorem test_decode_asm32 : decode 0b110100000#9 = .ok .asm32 := by decide
theorem test_decode_asm64 : decode 0b111000000#9 = .ok .asm64 := by decide
theorem test_decode_rejects :
    [0x000#9, 0x090#9, 0x060#9, 0x11F#9, 0x121#9, 0x1C1#9, 0x1FF#9, 0x1BF#9].map decode =
      List.replicate 8 (.error .precisionMismatch) := by decide
theorem test_table_word : decodeTableWord 16 0x1A0 = some .asm32 ∧ decodeTableWord 16 0x3A0 = none := by decide

/-! ### One step per instruction -/

/-- E32-9: 16777219 is a tie and goes up to the even mantissa. -/
theorem test_enc32_tie :
    (outputsOf (valIn 0x020#9 0x4170000030000000#64)).map (fun o => (o.status, o.strOutLen, o.strOutChr.toList.take 33)) =
      some (0#2, 32#8, chars "01001011100000000000000000000010" ++ [0#8]) := by decide
/-- E32-35: -1e-50 is too small, and its sign is kept. -/
theorem test_enc32_underflow :
    (outputsOf (valIn 0x020#9 0xB58DEE7A4AD4B81F#64)).map (fun o => o.strOutChr.toList.take 32) =
      some (chars "10000000000000000000000000000000") := by decide
/-- E64-12. -/
theorem test_enc64 :
    (outputsOf (valIn 0x040#9 0xC028800000000000#64)).map (fun o => (o.status, o.strOutLen, o.strOutChr.toList)) =
      some (0#2, 64#8, chars "1100000000101000100000000000000000000000000000000000000000000000") := by decide
/-- X24: lanes past the string hold 0xFF and are ignored. -/
theorem test_dec32_unused_lanes :
    (outputsOf (strIn 0x0A0#9 g32)).map (fun o => (o.status, o.valOut)) = some (0#2, 0x4028800000000000#64) := by decide
/-- X5: the first 31 characters. -/
theorem test_dec32_length_31 : (outputsOf (strIn 0x0A0#9 (g32.take 31))).map Outputs.status = some 1#2 := by decide
/-- D64-8: a reversed byte order would show. -/
theorem test_dec64_byte_order :
    (outputsOf (strIn 0x0C0#9
      (chars "0000000100100011010001010110011110001001101010111100110111101111"))).map Outputs.valOut =
      some 0x0123456789ABCDEF#64 := by decide +kernel
/-- X8: 32 characters at precision 64 are not padded. -/
theorem test_dec64_not_padded : (outputsOf (strIn 0x0C0#9 g32)).map Outputs.status = some 1#2 := by decide
/-- 95_test_vectors.md 2.2, unused lanes. -/
theorem test_dcp32_unused_bits :
    (outputsOf (rawIn 0x120#9 0xDEADBEEF41440000#64)).map
      (fun o => (o.status, o.signOut, o.expOut, o.manOut, o.eunbOut)) =
      some (0#2, 0#1, 0x082#11, 0x440000#52, 0x003#12) := by decide
/-- F64-10: mantissa bit 51 alone, a negative signed exponent. -/
theorem test_dcp64_boundary :
    (outputsOf (rawIn 0x140#9 0x0008000000000000#64)).map (fun o => (o.signOut, o.expOut, o.manOut, o.eunbOut)) =
      some (0#1, 0x000#11, 0x8000000000000#52, 0xC01#12) := by decide
/-- 95_test_vectors.md 2.2, unused lanes. -/
theorem test_asm32_unused_bits :
    (outputsOf (fieldsIn 0x1A0#9 0#1 0x782#11 0xFFFFFFF440000#52)).map (fun o => (o.status, o.rawOut)) =
      some (0#2, 0x41440000#64) := by decide
/-- F64-2, right to left. -/
theorem test_asm64 :
    (outputsOf (fieldsIn 0x1C0#9 1#1 0x402#11 0x8800000000000#52)).map Outputs.rawOut = some 0xC028800000000000#64 := by
  decide
/-- X20: both failures apply, the precision wins. -/
theorem test_precision_first : (outputsOf (strIn 0x090#9 (chars "102"))).map Outputs.status = some 2#2 := by decide

/-! ### Typed functions -/

/-- E32-2, E32-13, E32-18, E32-24, E32-28, E32-29, E32-39, E32-42. -/
theorem test_narrow :
    [0x3FB999999999999A#64, 0x3FFFFFFFF0000000#64, 0x47EFFFFFF0000000#64, 0x380FFFFFE0000000#64, 0x3690000000000000#64,
      0x3690000000000001#64, 0x7FF0000000000001#64, 0x7FF000001FFFFFFF#64].map narrow =
      [0x3DCCCCCD#32, 0x40000000#32, 0x7F800000#32, 0x00800000#32, 0x00000000#32, 0x00000001#32, 0x7FC00000#32,
        0x7FC00000#32] := by decide
/-- D32-5, D32-9, D32-12, D32-13, D32-14, D32-16. -/
theorem test_widen :
    [0xFFFFFFFF#32, 0x7F800001#32, 0x00000003#32, 0x00400000#32, 0x007FFFFF#32, 0x7F7FFFFF#32].map widen =
      [0xFFFFFFFFE0000000#64, 0x7FF0000020000000#64, 0x36B8000000000000#64, 0x3800000000000000#64, 0x380FFFFFC0000000#64,
        0x47EFFFFFE0000000#64] := by decide
/-- B4, B8. -/
theorem test_intToBytes :
    intToBytes 5 4 (by decide) = [0x00#8, 0x00#8, 0x00#8, 0x05#8] ∧
    intToBytes 0x0123456789ABCDEF 4 (by decide) = [0x89#8, 0xAB#8, 0xCD#8, 0xEF#8] := by decide
/-- S10, and EMAX of 00_scope.md R6. -/
theorem test_layout :
    layout .single = ⟨32, 8, 23, 127⟩ ∧ layout .double = ⟨64, 11, 52, 1023⟩ ∧ expMaxOf .single = 255 ∧ expMaxOf .double = 2047 := by
  decide
/-- 40_fields.md R104, its check against the document's vector: 12.25. -/
theorem test_denote : denote .single 0x41440000#32 = .number (49 / 4) := by
  have h : fields .single 0x41440000#32 = ⟨0#1, 0x82#8, 0x440000#23⟩ := by decide
  rw [denote, h, denote_single_finite _ _ _ (by decide)]
  simp only [signFactor, effectiveExponent]
  norm_num

/-! ### Witnesses: states and operands that meet each statement's hypotheses -/

/-- StepRunsDecodedInstruction. -/
theorem witness_decoded_step : decode (State.reset.withFetchWord 16 0x1C0).inp.cmd = .ok .asm64 := by decide
/-- DecodeAndEncodeAgree: a word for each clause. -/
theorem witness_decode_clauses : decode 0x1C0#9 = .ok .asm64 ∧ decode 0x1C1#9 = .error .precisionMismatch := by decide
/-- Dec32WidensTheStringsBits, with character lanes past the string. -/
theorem witness_dec32_valid :
    (strIn 0x0A0#9 g32).strInLen = 32#8 ∧
    ∀ (i : Nat) (_ : i < 32), (strIn 0x0A0#9 g32).strInChr[i] = 0x30#8 ∨ (strIn 0x0A0#9 g32).strInChr[i] = 0x31#8 := by
  decide
/-- Dec64ReadsTheStringsBits. -/
theorem witness_dec64_valid :
    (strIn 0x0C0#9 (g32 ++ g32)).strInLen = 64#8 ∧
    ∀ (i : Nat) (_ : i < 64),
      (strIn 0x0C0#9 (g32 ++ g32)).strInChr[i] = 0x30#8 ∨ (strIn 0x0C0#9 (g32 ++ g32)).strInChr[i] = 0x31#8 := by
  decide
/-- DecRefusesOtherStrings: the length cause one away from W, and the character cause at the last lane, at both precisions. -/
theorem witness_dec_refused :
    (strIn 0x0A0#9 (g32 ++ [0x30#8])).strInLen ≠ 32#8 ∧ (strIn 0x0C0#9 (g32 ++ g32.take 31)).strInLen ≠ 64#8 ∧
    ((strIn 0x0A0#9 (g32.take 31 ++ [0x32#8])).strInLen = 32#8 ∧
      (strIn 0x0A0#9 (g32.take 31 ++ [0x32#8])).strInChr[31] = 0x32#8) ∧
    ((strIn 0x0C0#9 (g32 ++ g32.take 31 ++ [0x2F#8])).strInLen = 64#8 ∧
      (strIn 0x0C0#9 (g32 ++ g32.take 31 ++ [0x2F#8])).strInChr[63] = 0x2F#8) := by decide
/-- RenderWritesEveryBit and ByteSequenceSlices: the last index. -/
theorem witness_last_index : (31 : Nat) < 32 ∧ (0 : Nat) < 4 ∧ (3 : Nat) < 4 := by decide
/-- ParseReadsBaseTwo, RenderAndParseInverse, StringValueStringRoundTrip, CodecInjectivity: valid strings at both precisions. -/
theorem witness_valid_strings : valid (widthOf .single) g32 = true ∧ valid (widthOf .double) (g32 ++ g32) = true := by decide
/-- IntToBytesBigEndian, AdapterThenReinterpretIsIdentity: a positive length and its last byte. -/
theorem witness_byte_lengths : 0 < byteLenOf .single ∧ 0 < byteLenOf .double ∧ (7 : Nat) < byteLenOf .double := by decide
/-- BytesToBitsBigEndian: a sequence of length L. -/
theorem witness_bytes : (intToBytes 0x41440000 4 (by decide)).length = 4 := by decide
/-- CodecInjectivity, its third clause: one value decoded twice. -/
theorem witness_decoded_value : dec .single g32 = .ok 0x4028800000000000#64 := by decide

/-- NarrowRoundsToNearestEven: 12.25 is below the overflow midpoint, and a single pattern denotes it. -/
theorem witness_round_in_range :
    denote .double 0x4028800000000000#64 = .number (49 / 4) ∧ |(49 / 4 : ℚ)| < 2 ^ 128 - 2 ^ 103 ∧
    denote .single 0x41440000#32 = .number (49 / 4) := by
  refine ⟨?_, by norm_num [abs_of_pos], test_denote⟩
  have h : fields .double 0x4028800000000000#64 = ⟨0#1, 0x402#11, 0x8800000000000#52⟩ := by decide
  rw [denote, h, denote_double_finite _ _ _ (by decide)]
  simp only [signFactor, effectiveExponent, significand]
  norm_num
/-- NarrowRoundsToNearestEven, its tie clause: 16777217 lies as far from 16777216 as from 16777218. -/
theorem witness_round_tie :
    denote .double 0x4170000010000000#64 = .number 16777217 ∧ denote .single 0x4B800000#32 = .number 16777216 ∧
    denote .single 0x4B800001#32 = .number 16777218 ∧
    |(16777217 : ℚ) - 16777218| = |(16777217 : ℚ) - 16777216| := by
  have h1 : fields .double 0x4170000010000000#64 = ⟨0#1, 0x417#11, 0x10000000#52⟩ := by decide
  have h2 : fields .single 0x4B800000#32 = ⟨0#1, 0x97#8, 0#23⟩ := by decide
  have h3 : fields .single 0x4B800001#32 = ⟨0#1, 0x97#8, 1#23⟩ := by decide
  refine ⟨?_, ?_, ?_, by norm_num⟩
  · rw [denote, h1, denote_double_finite _ _ _ (by decide)]
    simp only [signFactor, effectiveExponent, significand]
    norm_num
  · rw [denote, h2, denote_single_finite _ _ _ (by decide)]
    simp only [signFactor, effectiveExponent]
    norm_num
  · rw [denote, h3, denote_single_finite _ _ _ (by decide)]
    simp only [signFactor, effectiveExponent]
    norm_num
/-- NarrowOverflowsToInfinity: exactly the overflow midpoint. -/
theorem witness_overflow :
    denote .double 0x47EFFFFFF0000000#64 = .number (2 ^ 128 - 2 ^ 103) ∧ (2 : ℚ) ^ 128 - 2 ^ 103 ≤ |2 ^ 128 - 2 ^ 103| := by
  refine ⟨?_, le_abs_self _⟩
  have h : fields .double 0x47EFFFFFF0000000#64 = ⟨0#1, 0x47E#11, 0xFFFFFF0000000#52⟩ := by decide
  rw [denote, h, denote_double_finite _ _ _ (by decide)]
  simp only [signFactor, effectiveExponent, significand]
  norm_num
/-- NarrowUnderflowsGradually: exactly `2^-150` for the first clause, 1.5 times it for the second. -/
theorem witness_underflow :
    denote .double 0x3690000000000000#64 = .number ((2 : ℚ) ^ (-150 : ℤ)) ∧
    |(2 : ℚ) ^ (-150 : ℤ)| ≤ (2 : ℚ) ^ (-150 : ℤ) ∧
    denote .double 0x3698000000000000#64 = .number (3 / 2 * (2 : ℚ) ^ (-150 : ℤ)) ∧
    (2 : ℚ) ^ (-150 : ℤ) < |3 / 2 * (2 : ℚ) ^ (-150 : ℤ)| ∧
    |3 / 2 * (2 : ℚ) ^ (-150 : ℤ)| < (2 : ℚ) ^ (-149 : ℤ) := by
  have h1 : fields .double 0x3690000000000000#64 = ⟨0#1, 0x369#11, 0#52⟩ := by decide
  have h2 : fields .double 0x3698000000000000#64 = ⟨0#1, 0x369#11, 0x8000000000000#52⟩ := by decide
  refine ⟨?_, by norm_num [abs_of_pos], ?_, by norm_num [abs_of_pos], by norm_num [abs_of_pos]⟩
  · rw [denote, h1, denote_double_finite _ _ _ (by decide)]
    simp only [signFactor, effectiveExponent, significand]
    norm_num
  · rw [denote, h2, denote_double_finite _ _ _ (by decide)]
    simp only [signFactor, effectiveExponent, significand]
    norm_num
/-- NansAndInfinitiesConvert: a double NaN whose payload lies in the dropped bits, one whose top bits survive, a single NaN. -/
theorem witness_nans :
    classify .double 0x7FF000001FFFFFFF#64 = .nan ∧ classify .double 0xFFF4000000000000#64 = .nan ∧
    classify .single 0x7F800001#32 = .nan := by decide
/-- ValueStringValueRoundTrip: a value in the image of the widening, and one that is not (PRG3). -/
theorem witness_widen_image : widen 0x41440000#32 = 0x4028800000000000#64 ∧
    widen (narrow 0x3FB999999999999A#64) ≠ 0x3FB999999999999A#64 := by decide
/-- ExactNarrowingRoundTrips: the model's own narrowing at 12.25 and at the two zeros. -/
theorem witness_exact_narrowing :
    (49 / 4 : ℚ) ≠ 0 ∧ denote .double 0x4028800000000000#64 = .number (49 / 4) ∧
    denote .single (narrow 0x4028800000000000#64) = .number (49 / 4) ∧
    narrow 0x8000000000000000#64 = 0x80000000#32 ∧ narrow 0x0000000000000000#64 = 0x00000000#32 := by
  have h : narrow 0x4028800000000000#64 = 0x41440000#32 := by decide
  exact ⟨by norm_num, witness_round_in_range.1, by rw [h]; exact test_denote, by decide, by decide⟩

/-- A state that has settled on a DCP.32 of 12.25, its other result lanes holding what no one may read. -/
def settledDcp32 : State :=
  { inp := rawIn 0x120#9 0xDEADBEEF41440000#64
    out := { Outputs.reset with
      status := 0#2, signOut := 0#1, expOut := 0x082#11, manOut := 0x440000#52, eunbOut := 0x003#12, rawOut := 0xFFFF#64 }
    freeCount := 7 }

/-- StepKeepsInterfaceInv: a state with a readable result meets the invariant. -/
theorem witness_interface_inv : InterfaceInv settledDcp32 ∧ mayRead settledDcp32 .fields = true ∧
    ∃ t, step settledDcp32 = .next t := by
  refine ⟨⟨by unfold Settled; decide, ?_, by decide⟩, by decide, ⟨_, rfl⟩⟩
  intro i hi _
  have : i = .dcp32 := by
    have h : decode settledDcp32.inp.cmd = .ok .dcp32 := by decide
    rw [h] at hi
    cases hi
    rfl
  subst this
  exact ⟨by decide, by decide⟩

/-- OnlyOperandsMatter: two hosts that agree on the operands of DEC.32, of DCP.32 and of an illegal word, and on nothing else. -/
theorem witness_same_operands :
    SameOperands (strIn 0x0A0#9 g32) { strIn 0x0A0#9 g32 with strInChr := Vector.ofFn fun i => (g32[i.val]?).getD 0#8 } ∧
    SameOperands (rawIn 0x120#9 0xDEADBEEF41440000#64) (valIn 0x120#9 1#64 |> fun i => { i with rawIn := 0x41440000#64 }) ∧
    SameOperands (valIn 0x1FF#9 1#64) (rawIn 0x1FF#9 2#64) ∧
    ∃ t, transact State.reset (rawIn 0x120#9 0x41440000#64) = .next t := by
  refine ⟨⟨rfl, ?_⟩, ⟨rfl, ?_⟩, ⟨rfl, ?_⟩, ⟨_, rfl⟩⟩
  · have h : decode (strIn 0x0A0#9 g32).cmd = .ok .dec32 := by decide
    rw [h]
    exact ⟨rfl, fun _ => by decide⟩
  · have h : decode (rawIn 0x120#9 0xDEADBEEF41440000#64).cmd = .ok .dcp32 := by decide
    rw [h]
    decide
  · have h : decode (valIn 0x1FF#9 1#64).cmd = .error .precisionMismatch := by decide
    rw [h]
    trivial

end Sys2Proof.Tests
end

namespace Sys2Proof.Machine

/-- Settles O23. Byte j of the adapter's answer is `n` shifted right by `8 * (len - 1 - j)` and cut to its low
eight bits; on a bit pattern that is the slice at that offset (20_memory.md R40). -/
theorem byteSequenceSlices : Obligations.ByteSequenceSlices := by
  intro len h n j hj
  have hbyte : BitVec.ofNat 8 (n.toNat >>> (8 * (len - 1 - j))) = n.extractLsb' (8 * (len - 1 - j)) 8 :=
    BitVec.eq_of_toNat_eq (by rw [BitVec.toNat_ofNat, BitVec.extractLsb'_toNat])
  rw [intToBytes_getElem? n.toNat len h hj, hbyte]

end Sys2Proof.Machine

namespace Sys2Proof.Machine

/-! ### Fields and Join as integer arithmetic (40_fields.md R93, R97) -/

/-- A field triple is determined by the numbers of its three fields. -/
theorem FieldTriple.eq_of_toNat_eq {p : Precision} {t u : FieldTriple p} (hs : t.sign.toNat = u.sign.toNat)
    (he : t.exponent.toNat = u.exponent.toNat) (hm : t.mantissa.toNat = u.mantissa.toNat) : t = u := by
  cases t
  cases u
  rw [FieldTriple.mk.injEq]
  exact ⟨BitVec.eq_of_toNat_eq hs, BitVec.eq_of_toNat_eq he, BitVec.eq_of_toNat_eq hm⟩

/-- The sign is all that is left of a pattern above bit W - 2: its one-bit mask takes nothing away. -/
theorem fields_sign_toNat (p : Precision) (raw : RawBits p) :
    (fields p raw).sign.toNat = raw.toNat / 2 ^ (widthOf p - 1) := by
  have hwidth : 2 ^ widthOf p = 2 ^ (widthOf p - 1) * 2 ^ 1 := by cases p <;> rfl
  have hbit : raw.toNat / 2 ^ (widthOf p - 1) < 2 ^ 1 := Nat.div_lt_of_lt_mul (hwidth ▸ raw.isLt)
  simp only [fields, BitVec.extractLsb'_toNat, Nat.shiftRight_eq_div_pow]
  exact Nat.mod_eq_of_lt hbit

/-- The exponent is the pattern shifted right by MW and masked to EW bits. -/
theorem fields_exponent_toNat (p : Precision) (raw : RawBits p) :
    (fields p raw).exponent.toNat = raw.toNat / 2 ^ manWidthOf p % 2 ^ expWidthOf p := by
  simp only [fields, BitVec.extractLsb'_toNat, Nat.shiftRight_eq_div_pow]

/-- The mantissa is the pattern masked to MW bits. -/
theorem fields_mantissa_toNat (p : Precision) (raw : RawBits p) :
    (fields p raw).mantissa.toNat = raw.toNat % 2 ^ manWidthOf p := by
  simp only [fields, BitVec.extractLsb'_toNat, Nat.shiftRight_zero]

/-- The number of a joined pattern, at either precision. -/
theorem join_toNat (p : Precision) (t : FieldTriple p) :
    (join p t).toNat =
      t.sign.toNat * 2 ^ (widthOf p - 1) + t.exponent.toNat * 2 ^ manWidthOf p + t.mantissa.toNat := by
  cases p with
  | single => exact join_single_toNat t.sign t.exponent t.mantissa
  | double => exact join_double_toNat t.sign t.exponent t.mantissa

/-- The weight of the sign is the product of the two moduli below it: the fields tile the pattern (40_fields.md R91). -/
theorem sign_weight (p : Precision) : 2 ^ (widthOf p - 1) = 2 ^ manWidthOf p * 2 ^ expWidthOf p := by
  cases p <;> rfl

/-- The sign as the second of two quotients, the first at the mantissa's seam and the second at the exponent's. -/
theorem fields_sign_toNat_div_div (p : Precision) (raw : RawBits p) :
    (fields p raw).sign.toNat = raw.toNat / 2 ^ manWidthOf p / 2 ^ expWidthOf p := by
  rw [fields_sign_toNat, sign_weight, Nat.div_div_eq_div_mul]

/-- The joined number nested at its two seams. -/
theorem join_toNat_nested (p : Precision) (t : FieldTriple p) :
    (join p t).toNat =
      t.mantissa.toNat + 2 ^ manWidthOf p * (t.exponent.toNat + 2 ^ expWidthOf p * t.sign.toNat) := by
  rw [join_toNat, sign_weight]
  ring

/-- Taking the fields of a joined triple gives the triple (40_fields.md R99): each field is below its modulus, so at each
seam quotient and remainder are unique. -/
theorem fields_join (p : Precision) (t : FieldTriple p) : fields p (join p t) = t := by
  obtain ⟨hupper, hmantissa⟩ := (Nat.div_mod_unique (Nat.two_pow_pos _)).2
    ⟨(join_toNat_nested p t).symm, t.mantissa.isLt⟩
  obtain ⟨hsign, hexponent⟩ := (Nat.div_mod_unique (Nat.two_pow_pos _)).2 ⟨hupper.symm, t.exponent.isLt⟩
  apply FieldTriple.eq_of_toNat_eq
  · rw [fields_sign_toNat_div_div, hsign]
  · rw [fields_exponent_toNat, hexponent]
  · rw [fields_mantissa_toNat, hmantissa]

/-- Joining the fields of a pattern gives the pattern (40_fields.md R99): at each seam a number is its remainder plus the
modulus times its quotient. -/
theorem join_fields (p : Precision) (raw : RawBits p) : join p (fields p raw) = raw := by
  apply BitVec.eq_of_toNat_eq
  rw [join_toNat_nested, fields_mantissa_toNat, fields_exponent_toNat, fields_sign_toNat_div_div,
    Nat.mod_add_div, Nat.mod_add_div]

/-- Settles O25, field by field. -/
theorem fieldsAsArithmetic : Obligations.FieldsAsArithmetic := fun p raw =>
  ⟨fields_sign_toNat p raw, fields_exponent_toNat p raw, fields_mantissa_toNat p raw⟩

/-- Settles O26: the sum, its bound and the two inverse laws. -/
theorem joinAsArithmetic : Obligations.JoinAsArithmetic := fun p t =>
  ⟨join_toNat p t, (join p t).isLt, fields_join p t, join_fields p⟩

end Sys2Proof.Machine

namespace Sys2Proof.Machine

/-! ### Rendering and ENC (41_encoder.md R123 to R125) -/

/-- Settles O15: a rendering has one character for each bit, and `chrOfBit` writes '1' for a bit that is 1. -/
theorem renderWritesEveryBit : Obligations.RenderWritesEveryBit := by
  intro w raw
  refine ⟨render_length w raw, fun i hi => ?_⟩
  rw [render_getElem?, if_pos hi, chrOfBit]

/-- ENC's result is a valid BitString, whatever the value. -/
theorem valid_enc (p : Precision) (v : Value) : valid (widthOf p) (enc p v) = true :=
  valid_render (widthOf p) (toRawWith narrow p v)

/-- ENC's result has W(p) characters. -/
theorem enc_length (p : Precision) (v : Value) : (enc p v).length = widthOf p :=
  ((valid_iff _ _).mp (valid_enc p v)).1

/-- ENC completes from every state, with status OK and the stated length W(p). -/
theorem runEnc_answers (p : Precision) (s : State) :
    ∃ t, runEnc p s = .next t ∧ t.out.status = Config.statusOk ∧ t.out.strOutLen = BitVec.ofNat 8 (widthOf p) := by
  refine ⟨_, rfl, rfl, ?_⟩
  rw [State.settle_out, Outputs.driveString_strOutLen, enc_length]

/-- Settles O16: the string part is the validity of a rendering; on the lanes both instructions are ENC at their precision. -/
theorem encWidthInvariant : Obligations.EncWidthInvariant := by
  refine ⟨fun p v => (valid_iff _ _).mp (valid_enc p v), fun s => ?_, fun s => ?_⟩
  · obtain ⟨t, hnext, -, hlen⟩ := runEnc_answers .single s
    exact ⟨t, hnext, hlen⟩
  · obtain ⟨t, hnext, -, hlen⟩ := runEnc_answers .double s
    exact ⟨t, hnext, hlen⟩

end Sys2Proof.Machine

namespace Sys2Proof.Machine

/-! ### The narrowing is exact where it can be (41_encoder.md R126)

A non-zero number has one double pattern, so a double that denotes the number of a finite single is the widening of that single,
and narrowing undoes widening there. The three arms of the widening are those of 42_decoder.md R165. -/

/-- A number below the width's modulus is what its bit vector holds. -/
theorem toNat_ofNat_of_lt {w n : Nat} (h : n < 2 ^ w) : (BitVec.ofNat w n).toNat = n :=
  (BitVec.toNat_ofNat n w).trans (Nat.mod_eq_of_lt h)

/-- What the widening makes of a finite single: the sign is kept, and exponent and mantissa go by class. -/
theorem widen_finite_cases {f : BitVec 32} {t : FieldTriple .single} (ht : fields .single f = t)
    (hfin : t.exponent.toNat ≠ 255) :
    ∃ u, fields .double (widen f) = u ∧ u.sign = t.sign ∧
      ((t.exponent.toNat = 0 ∧ t.mantissa.toNat = 0 ∧ u.exponent.toNat = 0 ∧ u.mantissa.toNat = 0) ∨
       (t.exponent.toNat = 0 ∧ t.mantissa.toNat ≠ 0 ∧ u.exponent.toNat = Nat.log2 t.mantissa.toNat + 874 ∧
        u.mantissa.toNat = (t.mantissa.toNat - 2 ^ Nat.log2 t.mantissa.toNat) <<< (52 - Nat.log2 t.mantissa.toNat)) ∨
       (t.exponent.toNat ≠ 0 ∧ u.exponent.toNat = t.exponent.toNat + 896 ∧
        u.mantissa.toNat = t.mantissa.toNat <<< 29)) := by
  have hexp : t.exponent ≠ 255#8 := fun h => hfin (by rw [h]; rfl)
  have hM : t.mantissa.toNat < 2 ^ 23 := t.mantissa.isLt
  have hE : t.exponent.toNat < 2 ^ 8 := t.exponent.isLt
  simp only [widen, ht, if_neg hexp]
  by_cases h0 : t.exponent = 0#8
  · have hE0 : t.exponent.toNat = 0 := by rw [h0]; rfl
    rw [if_pos h0]
    by_cases hm : t.mantissa = 0#23
    · rw [if_pos hm, fields_join]
      exact ⟨_, rfl, rfl, .inl ⟨hE0, by rw [hm]; rfl, rfl, rfl⟩⟩
    · have hm0 : t.mantissa.toNat ≠ 0 := fun h => hm (BitVec.eq_of_toNat_eq h)
      have hlog : Nat.log2 t.mantissa.toNat < 23 := (Nat.log2_lt hm0).mpr hM
      rw [if_neg hm, widenSubnormal, fields_join]
      refine ⟨_, rfl, rfl, .inr (.inl ⟨hE0, hm0, ?_, ?_⟩)⟩
      · exact toNat_ofNat_of_lt (by simp only [expWidthOf]; omega)
      · exact toNat_ofNat_of_lt (sub_shift_lt hm0 hM)
  · have hE0 : t.exponent.toNat ≠ 0 := fun h => h0 (BitVec.eq_of_toNat_eq h)
    rw [if_neg h0, fields_join]
    refine ⟨_, rfl, rfl, .inr (.inr ⟨hE0, ?_, ?_⟩)⟩
    · exact toNat_ofNat_of_lt (by simp only [expWidthOf]; omega)
    · exact toNat_ofNat_of_lt (by rw [Nat.shiftLeft_eq]; simp only [manWidthOf]; omega)

/-- A subnormal single's mantissa with its leading 1, at bit h, made the implicit 1 of a double: the significand is the mantissa
moved up to bit 52 (42_decoder.md R166). -/
theorem significand_leading_one {M : Nat} (h0 : M ≠ 0) (hM : M < 2 ^ 23) :
    significand (Nat.log2 M + 874) ((M - 2 ^ Nat.log2 M) <<< (52 - Nat.log2 M)) = M * 2 ^ (52 - Nat.log2 M) := by
  have hlog : Nat.log2 M < 23 := (Nat.log2_lt h0).mpr hM
  have hone : 2 ^ Nat.log2 M * 2 ^ (52 - Nat.log2 M) = 2 ^ 52 := by
    rw [← pow_add, Nat.add_sub_cancel' (by omega)]
  rw [significand, if_neg (by omega), Nat.shiftLeft_eq, ← hone, ← Nat.add_mul, Nat.add_sub_cancel' (Nat.log2_self_le h0)]

/-- The significand of a widened finite single is the single's own, shifted by as many bits as its exponent went down
(42_decoder.md R166). -/
theorem widen_finite_significand {f : BitVec 32} {t : FieldTriple .single} (ht : fields .single f = t)
    (hfin : t.exponent.toNat ≠ 255) :
    ∃ u k, fields .double (widen f) = u ∧ u.sign = t.sign ∧ u.exponent.toNat ≠ 2047 ∧
      significand u.exponent.toNat u.mantissa.toNat =
        (if t.exponent.toNat = 0 then t.mantissa.toNat else 2 ^ 23 + t.mantissa.toNat) * 2 ^ k ∧
      effectiveExponent u.exponent.toNat + k = effectiveExponent t.exponent.toNat + 925 := by
  have hE : t.exponent.toNat < 2 ^ 8 := t.exponent.isLt
  have hM : t.mantissa.toNat < 2 ^ 23 := t.mantissa.isLt
  obtain ⟨u, hu, hsign, ⟨hE0, hM0, he, hm⟩ | ⟨hE0, hM0, he, hm⟩ | ⟨hE0, he, hm⟩⟩ := widen_finite_cases ht hfin
  · refine ⟨u, 925, hu, hsign, by omega, ?_, by rw [he, hE0]⟩
    rw [he, hm, hE0, hM0, if_pos rfl, Nat.zero_mul, significand, if_pos rfl]
  · have hlog : Nat.log2 t.mantissa.toNat < 23 := (Nat.log2_lt hM0).mpr hM
    refine ⟨u, 52 - Nat.log2 t.mantissa.toNat, hu, hsign, by omega, ?_, ?_⟩
    · rw [he, hm, if_pos hE0, significand_leading_one hM0 hM]
    · rw [he, hE0, effectiveExponent, effectiveExponent, if_neg (by omega), if_pos rfl]
      omega
  · refine ⟨u, 29, hu, hsign, by omega, ?_, ?_⟩
    · rw [he, hm, if_neg hE0, significand, if_neg (by omega), Nat.shiftLeft_eq]
      ring
    · rw [he, effectiveExponent, effectiveExponent, if_neg (by omega), if_neg hE0]

/-- Widening a finite single keeps the number it denotes. -/
theorem denote_widen_of_finite {f : BitVec 32} (hfin : (fields .single f).exponent.toNat ≠ 255) :
    denote .double (widen f) = denote .single f := by
  obtain ⟨u, k, hu, hsign, hu2047, hsig, hexp⟩ := widen_finite_significand rfl hfin
  have hscale : (2 : ℚ) ^ k * 2 ^ ((effectiveExponent u.exponent.toNat : ℤ) - 1075) =
      2 ^ ((effectiveExponent (fields .single f).exponent.toNat : ℤ) - 150) := by
    rw [← zpow_natCast, ← zpow_add₀ two_ne_zero]
    congr 1
    omega
  calc denote .double (widen f)
      = .number (signFactor u.sign * ((significand u.exponent.toNat u.mantissa.toNat : ℚ) *
          2 ^ ((effectiveExponent u.exponent.toNat : ℤ) - 1075))) := by
        rw [denote, hu]
        exact denote_double_finite _ _ _ hu2047
    _ = denote .single f := by
        rw [hsig, hsign, Nat.cast_mul, Nat.cast_pow, Nat.cast_ofNat, mul_assoc, hscale]
        exact (denote_single_finite _ _ _ hfin).symm

/-- The magnitude of a widened finite single narrows to the single's own magnitude, class by class. -/
theorem narrowMagnitude_widen_of_finite {f : BitVec 32} {t : FieldTriple .single} (ht : fields .single f = t)
    (hfin : t.exponent.toNat ≠ 255) :
    narrowMagnitude (fields .double (widen f)).exponent.toNat (fields .double (widen f)).mantissa.toNat =
      t.exponent.toNat * 2 ^ 23 + t.mantissa.toNat := by
  have hE : t.exponent.toNat < 2 ^ 8 := t.exponent.isLt
  have hM : t.mantissa.toNat < 2 ^ 23 := t.mantissa.isLt
  obtain ⟨u, hu, -, ⟨hE0, hM0, he, hm⟩ | ⟨hE0, hM0, he, hm⟩ | ⟨hE0, he, hm⟩⟩ := widen_finite_cases ht hfin
  · rw [hu, he, hm, hE0, hM0, narrowMagnitude_zero, Nat.zero_mul]
  · rw [hu, he, hm, hE0, narrowMagnitude_subnormal hM0 hM, Nat.zero_mul, Nat.zero_add]
  · rw [hu, he, hm, narrowMagnitude_normal (by omega) (by omega) hM]

/-- Narrowing undoes widening on a finite single (42_decoder.md R173). -/
theorem narrow_widen_of_finite {f : BitVec 32} (hfin : (fields .single f).exponent.toNat ≠ 255) :
    narrow (widen f) = f := by
  obtain ⟨u, k, hu, hsign, hu2047, -, -⟩ := widen_finite_significand rfl hfin
  have hnumber : (fields .double (widen f)).sign.toNat * 2 ^ 31 +
      narrowMagnitude (fields .double (widen f)).exponent.toNat (fields .double (widen f)).mantissa.toNat = f.toNat := by
    rw [narrowMagnitude_widen_of_finite rfl hfin, hu, hsign, ← Nat.add_assoc]
    exact (join_toNat .single _).symm.trans (congrArg BitVec.toNat (join_fields .single f))
  rw [narrow_of_finite (hu ▸ hu2047), hnumber, BitVec.ofNat_toNat, BitVec.setWidth_eq]

/-- A single that denotes a number is finite. -/
theorem finite_of_denote_single_number {f : BitVec 32} {q : ℚ} (h : denote .single f = .number q) :
    (fields .single f).exponent.toNat ≠ 255 := by
  intro hE
  simp only [denote, FieldTriple.denote, FieldTriple.classify, hE, expMaxOf_single] at h
  by_cases hm : (fields .single f).mantissa.toNat = 0 <;> simp [hm] at h

/-- A double that denotes the non-zero number of a single narrows to that single: it is the single's widening. -/
theorem narrow_eq_of_denote_eq {d : BitVec 64} {f : BitVec 32} {q : ℚ} (hq : q ≠ 0) (hd : denote .double d = .number q)
    (hf : denote .single f = .number q) : narrow d = f := by
  have hfin := finite_of_denote_single_number hf
  have hwiden : d = widen f := denote_double_injective hq hd ((denote_widen_of_finite hfin).trans hf)
  rw [hwiden, narrow_widen_of_finite hfin]

/-- The double negative zero is the widening of the single one, so its sign is kept. -/
theorem narrow_negativeZero : narrow 0x8000000000000000#64 = 0x80000000#32 := by
  have hwiden : widen 0x80000000#32 = 0x8000000000000000#64 := by decide
  rw [← hwiden, narrow_widen_of_finite (by decide)]

/-- The double positive zero is the widening of the single one. -/
theorem narrow_positiveZero : narrow 0x0000000000000000#64 = 0x00000000#32 := by
  have hwiden : widen 0x00000000#32 = 0x0000000000000000#64 := by decide
  rw [← hwiden, narrow_widen_of_finite (by decide)]

/-- Settles O28: exact where possible through the widening, the two zeros, and ENC's completion at Single. -/
theorem narrowMeetsTheRequirements : Obligations.NarrowMeetsTheRequirements := by
  refine ⟨⟨fun d f q => narrow_eq_of_denote_eq, narrow_negativeZero, narrow_positiveZero⟩, fun s => ?_⟩
  obtain ⟨t, hnext, hstatus, -⟩ := runEnc_answers .single s
  exact ⟨t, hnext, hstatus⟩

end Sys2Proof.Machine

namespace Sys2Proof.Machine

/-! ### The signed zeros' strings (41_encoder.md R125) -/

/-- The rendering of zero is '0' throughout. -/
theorem render_zero (w : Nat) : render w 0#w = List.replicate w Config.ch0 := by
  simp [render, chrOfBit, List.map_const']

/-- The rendering of the sign bit alone is '1' and then '0' throughout. -/
theorem render_intMin (w : Nat) :
    render (w + 1) (BitVec.intMin (w + 1)) = Config.ch1 :: List.replicate w Config.ch0 := by
  have hsign : (BitVec.intMin (w + 1)).getLsbD w = true := by rw [BitVec.getLsbD_intMin, decide_eq_true rfl]
  have hlow : ∀ i ∈ List.range w, chrOfBit ((BitVec.intMin (w + 1)).getLsbD (w - (i + 1))) = Config.ch0 := by
    intro i hi
    rw [List.mem_range] at hi
    rw [BitVec.getLsbD_intMin, decide_eq_false (by omega)]
    rfl
  rw [render, List.range_succ_eq_map, List.map_cons, List.map_map, Nat.add_sub_cancel, Nat.sub_zero, hsign]
  congr 1
  exact (List.map_congr_left hlow).trans (by rw [List.map_const', List.length_range])

/-- Settles O17: at Double the pattern is the value itself, at Single the narrowing keeps both zeros' signs (R126 b); the
rendering does the rest. -/
theorem signedZerosEncode : Obligations.SignedZerosEncode := by
  refine ⟨render_intMin 63, ?_, render_zero 64, ?_⟩
  · rw [enc, encWith, toRawWith, narrow_negativeZero]
    exact render_intMin 31
  · rw [enc, encWith, toRawWith, narrow_positiveZero]
    exact render_zero 32

end Sys2Proof.Machine

namespace Sys2Proof.Machine

/-! ### Validation, parsing and the byte sequence as positional numerals (42_decoder.md R152, R155, R158, R161) -/

/-- Validity as a statement about the characters at the indices below W (42_decoder.md R152). -/
theorem valid_iff_getElem? (w : Nat) (bits : List Chr) :
    valid w bits = true ↔
      bits.length = w ∧ ∀ i, i < w → bits[i]? = some Config.ch0 ∨ bits[i]? = some Config.ch1 := by
  rw [valid_iff, List.forall_mem_iff_forall_getElem]
  refine and_congr_right fun hlen => forall_congr' fun i => ?_
  subst hlen
  exact forall_congr' fun hi => by rw [List.getElem?_eq_getElem hi, Option.some_inj, Option.some_inj]

/-- DEC refuses exactly the strings that are not valid, always with InvalidBitString (42_decoder.md R151, R152). -/
theorem dec_eq_invalidBitString_iff (p : Precision) (bits : List Chr) :
    dec p bits = .error .invalidBitString ↔ ¬ valid (widthOf p) bits = true := by
  rw [dec]
  split
  case isTrue h => exact iff_of_false nofun (not_not_intro h)
  case isFalse h => exact iff_of_true rfl h

/-- No precision asks for more characters than there are character lanes. -/
theorem widthOf_le_lanes (p : Precision) : widthOf p ≤ 64 := by cases p <;> decide

/-- Validity of the input string, read off the lanes (30_encoding.md R68): each index below W has a lane. -/
theorem valid_readString_iff (p : Precision) (i : Inputs) :
    valid (widthOf p) (readString i) = true ↔ i.strInLen.toNat = widthOf p ∧
      ∀ (lane : Nat) (h : lane < 64), lane < widthOf p →
        i.strInChr[lane] = Config.ch0 ∨ i.strInChr[lane] = Config.ch1 := by
  rw [valid_iff_getElem?, readString, laneString_length]
  refine and_congr_right fun hlen => forall_congr' fun lane => ?_
  have hlane (h : lane < 64) (hw : lane < widthOf p) :
      (laneString i.strInLen i.strInChr)[lane]? = some i.strInChr[lane] := laneString_getElem? _ _ (hlen ▸ hw) h
  constructor
  · intro hbin h hw
    simpa only [hlane h hw, Option.some_inj] using hbin hw
  · intro hbin hw
    have h : lane < 64 := hw.trans_le (widthOf_le_lanes p)
    simpa only [hlane h hw, Option.some_inj] using hbin h hw

/-- Settles O18: validity index by index, DEC's failure, and validity on the lanes. -/
theorem validStringsExactly : Obligations.ValidStringsExactly :=
  ⟨valid_iff_getElem?, dec_eq_invalidBitString_iff, valid_readString_iff⟩

/-- Horner's rule: folding a sequence of digits from the left reads it as a numeral of the base, most significant
digit first. -/
theorem foldl_horner_eq_sum {α : Type} (base : Nat) (value : α → Nat) (xs : List α) :
    xs.foldl (fun acc x => acc * base + value x) 0 =
      ∑ i ∈ Finset.range xs.length, (xs[i]?.map value).getD 0 * base ^ (xs.length - 1 - i) := by
  induction xs using List.reverseRecOn with
  | nil => rfl
  | append_singleton xs x ih =>
    have hinit : ∀ i ∈ Finset.range xs.length,
        (xs[i]?.map value).getD 0 * base ^ (xs.length - 1 - i) * base =
          ((xs ++ [x])[i]?.map value).getD 0 * base ^ (xs.length + 1 - 1 - i) := by
      intro i hi
      rw [Finset.mem_range] at hi
      have hweight : xs.length - 1 - i + 1 = xs.length + 1 - 1 - i := by omega
      rw [List.getElem?_append_left hi, mul_assoc, ← pow_succ, hweight]
    rw [List.foldl_append, List.foldl_cons, List.foldl_nil, ih, Finset.sum_mul, Finset.sum_congr rfl hinit,
      List.length_append, List.length_singleton, Finset.sum_range_succ]
    simp only [List.getElem?_concat_length, Option.map_some, Option.getD_some, Nat.add_sub_cancel, Nat.sub_self, pow_zero,
      mul_one]

/-- A position's digit is 1 exactly where its character is '1' (42_decoder.md R155). -/
theorem digit_getElem? (bits : List Chr) (i : Nat) :
    (bits[i]?.map digit).getD 0 = if bits[i]? = some Config.ch1 then 1 else 0 := by
  cases bits[i]? with
  | none => rfl
  | some c => simp only [Option.map_some, Option.getD_some, digit, Option.some_inj]

/-- Settles O19: the parsing fold is Horner's rule in base 2 and does not wrap. -/
theorem parseReadsBaseTwo : Obligations.ParseReadsBaseTwo := by
  intro w bits hvalid
  obtain ⟨hlen, -⟩ := (valid_iff w bits).mp hvalid
  refine ⟨?_, fun i hi => parse_getLsbD hlen hi⟩
  rw [parse_toNat hlen, foldl_horner_eq_sum, hlen]
  exact Finset.sum_congr rfl fun i _ => by rw [digit_getElem?]

/-- Byte j of the adapter's answer as a number (42_decoder.md R158). -/
theorem intToBytes_getElem?_toNat (n len : Nat) (h : 0 < len) {j : Nat} (hj : j < len) :
    ((intToBytes n len h)[j]?).map BitVec.toNat = some (n / 2 ^ (8 * (len - 1 - j)) % 256) := by
  rw [intToBytes_getElem? n len h hj, Option.map_some, BitVec.toNat_ofNat, Nat.shiftRight_eq_div_pow]

/-- A byte that lies below bit `m` does not see what is cut off at bit `m`. -/
theorem byte_mod_two_pow {k m : Nat} (n : Nat) (hk : k + 8 ≤ m) : n % 2 ^ m / 2 ^ k % 256 = n / 2 ^ k % 256 := by
  obtain ⟨d, rfl⟩ := Nat.exists_eq_add_of_le hk
  have hdvd : 256 ∣ 2 ^ (8 + d) := Nat.pow_dvd_pow 2 (Nat.le_add_right 8 d)
  rw [Nat.add_assoc, Nat.pow_add, Nat.mod_mul_right_div_self, Nat.mod_mod_of_dvd _ hdvd]

/-- The adapter sees only the low `8 * len` bits of its number (42_decoder.md R158, R159). -/
theorem intToBytes_mod (n len : Nat) (h : 0 < len) :
    intToBytes n len h = intToBytes (n % 2 ^ (8 * len)) len h := by
  refine List.map_congr_left fun j hj => BitVec.eq_of_toNat_eq ?_
  rw [List.mem_range] at hj
  simp only [BitVec.toNat_ofNat, Nat.shiftRight_eq_div_pow]
  exact (byte_mod_two_pow n (by omega)).symm

/-- Settles O21: the length, each byte, and the truncation. -/
theorem intToBytesBigEndian : Obligations.IntToBytesBigEndian := fun n len h =>
  ⟨intToBytes_length n len h, fun _ hj => intToBytes_getElem?_toNat n len h hj, intToBytes_mod n len h⟩

/-- Reinterpreting a sequence of L bytes does not wrap. -/
theorem bytesToBits_toNat {len : Nat} {b : List Byte} (h : b.length = len) :
    (bytesToBits len b).toNat = b.foldl (fun acc x => acc * 256 + x.toNat) 0 := by
  have hlt : b.foldl (fun acc x => acc * 256 + x.toNat) 0 < 2 ^ (8 * len) := by
    rw [pow_mul, ← h]
    exact foldl_byte_lt b
  exact toNat_ofNat_of_lt hlt

/-- Settles O22: the reinterpretation fold is Horner's rule in base 256 and does not wrap. -/
theorem bytesToBitsBigEndian : Obligations.BytesToBitsBigEndian := by
  intro len b hlen
  rw [bytesToBits_toNat hlen, foldl_horner_eq_sum, hlen]
  exact Finset.sum_congr rfl fun j _ => by rw [pow_mul]; rfl

end Sys2Proof.Machine

namespace Sys2Proof.Machine

/-! ### Parsing undoes rendering, and rendering parsing (42_decoder.md R156) -/

/-- Bit by bit: character `w - 1 - k` of the rendering is the character of bit `k`, and parsing reads it back there. -/
theorem parse_render (w : Nat) (raw : BitVec w) : parse w (render w raw) = raw := by
  refine BitVec.eq_of_getLsbD_eq fun k hk => ?_
  have hindex : w - 1 - (w - 1 - k) = k := by omega
  have hread := parse_getLsbD (render_length w raw) (i := w - 1 - k) (by omega)
  rw [render_getElem?, if_pos (by omega), hindex] at hread
  rw [hread]
  cases raw.getLsbD k <;> decide

/-- Character by character: each is one of two, and bit `w - 1 - i` of the parsed number says which. -/
theorem render_parse {w : Nat} {bits : List Chr} (h : valid w bits = true) : render w (parse w bits) = bits := by
  obtain ⟨hlen, hbinary⟩ := (valid_iff_getElem? w bits).mp h
  refine List.ext_getElem? fun i => ?_
  rw [render_getElem?]
  by_cases hi : i < w
  · rw [if_pos hi, parse_getLsbD hlen hi]
    rcases hbinary i hi with hc | hc <;> rw [hc] <;> rfl
  · rw [if_neg hi, List.getElem?_eq_none (by omega)]

/-- Settles O20. -/
theorem renderAndParseInverse : Obligations.RenderAndParseInverse :=
  ⟨parse_render, fun _ _ => render_parse⟩

/-! ### The byte sequence inside DEC (42_decoder.md R162) -/

/-- Folding the big-endian slices back gives the number modulo `256 ^ len`, which a pattern of `8 * len` bits is below. -/
theorem bytesToBits_intToBytes (len : Nat) (h : 0 < len) (raw : BitVec (8 * len)) :
    bytesToBits len (intToBytes raw.toNat len h) = raw := by
  apply BitVec.eq_of_toNat_eq
  have hlt : raw.toNat < 256 ^ len := by
    have := raw.isLt
    rwa [pow_mul] at this
  rw [bytesToBits_toNat (intToBytes_length _ _ _), intToBytes, foldl_slices, Nat.mod_eq_of_lt hlt]

/-- The reinterpretation step of DEC changes nothing. -/
@[simp] theorem reinterpret_eq (p : Precision) (raw : RawBits p) : reinterpret p raw = raw := by
  cases p with
  | single => exact bytesToBits_intToBytes 4 (by decide) raw
  | double => exact bytesToBits_intToBytes 8 (by decide) raw

/-- Settles O24. -/
theorem adapterThenReinterpretIsIdentity : Obligations.AdapterThenReinterpretIsIdentity :=
  ⟨bytesToBits_intToBytes, reinterpret_eq⟩

/-! ### DEC as a function of the parsed pattern, and the round trips through the string (42_decoder.md R170 to R172) -/

/-- DEC of a valid string is the value of the pattern it spells. -/
theorem dec_of_valid {p : Precision} {bits : List Chr} (h : valid (widthOf p) bits = true) :
    dec p bits = .ok (toValue p (parse (widthOf p) bits)) := by
  rw [dec, if_pos h, reinterpret_eq]

/-- Only a valid string decodes. -/
theorem valid_of_dec_ok {p : Precision} {bits : List Chr} {v : Value} (h : dec p bits = .ok v) :
    valid (widthOf p) bits = true := by
  by_contra hvalid
  rw [(dec_eq_invalidBitString_iff p bits).mpr hvalid] at h
  cases h

/-- DEC undoes the rendering in ENC, whatever the narrowing: what is left is the value's way to a pattern and back. -/
theorem dec_encWith (nar : BitVec 64 → BitVec 32) (p : Precision) (v : Value) :
    dec p (encWith nar p v) = .ok (toValue p (toRawWith nar p v)) := by
  rw [encWith, dec_of_valid (valid_render _ _), parse_render]

end Sys2Proof.Machine

namespace Sys2Proof.Machine

/-! ### Infinities and NaNs: the two conversions and what a pattern denotes (41_encoder.md R131, 42_decoder.md R168)

An infinity is the non-finite pattern whose mantissa is zero: stated over the mantissa, one lemma each way serves both. -/

/-- What the widening makes of a non-finite single: sign kept, the mantissa at the top of the 52 bits. -/
theorem fields_widen_of_nonfinite {f : BitVec 32} (h : (fields .single f).exponent.toNat = 255) :
    (fields .double (widen f)).sign = (fields .single f).sign ∧
    (fields .double (widen f)).exponent = 2047#11 ∧
    (fields .double (widen f)).mantissa.toNat = (fields .single f).mantissa.toNat * 2 ^ 29 := by
  have hexp : (fields .single f).exponent = 255#8 := BitVec.eq_of_toNat_eq h
  have hM : (fields .single f).mantissa.toNat < 2 ^ 23 := (fields .single f).mantissa.isLt
  simp only [widen, if_pos hexp]
  split
  case isTrue hm =>
    rw [fields_join, hm]
    exact ⟨rfl, rfl, rfl⟩
  case isFalse hm =>
    rw [nanWiden, fields_join]
    refine ⟨rfl, rfl, ?_⟩
    rw [Nat.shiftLeft_eq]
    exact toNat_ofNat_of_lt (by simp only [manWidthOf]; omega)

/-- The mantissa of a narrowed NaN: the top 23 bits, or `0x400000` where those are zero. -/
def nanMantissa (m : Nat) : Nat := if m / 2 ^ 29 = 0 then 0x400000 else m / 2 ^ 29

/-- A narrowed NaN has a non-zero mantissa, so that it is still a NaN. -/
theorem nanMantissa_ne_zero (m : Nat) : nanMantissa m ≠ 0 := by
  unfold nanMantissa
  split <;> omega

/-- A mantissa that was moved to the top 23 bits is read back from there. -/
theorem nanMantissa_mul {m : Nat} (h : m ≠ 0) : nanMantissa (m * 2 ^ 29) = m := by
  rw [nanMantissa, Nat.mul_div_cancel _ (by positivity), if_neg h]

/-- The top 23 bits of a mantissa, as a number. -/
theorem toNat_mantissa_top (m : BitVec 52) : (m.extractLsb' 29 23).toNat = m.toNat / 2 ^ 29 := by
  have hm := m.isLt
  rw [BitVec.extractLsb'_toNat, Nat.shiftRight_eq_div_pow]
  omega

/-- The triple that `nanNarrow` joins. -/
theorem fields_nanNarrow (s : BitVec 1) (m : BitVec 52) :
    (fields .single (nanNarrow s m)).sign = s ∧ (fields .single (nanNarrow s m)).exponent = 255#8 ∧
    (fields .single (nanNarrow s m)).mantissa.toNat = nanMantissa m.toNat := by
  have htop : m.extractLsb' 29 23 = 0#23 ↔ m.toNat / 2 ^ 29 = 0 := by
    rw [← toNat_mantissa_top, ← BitVec.toNat_inj, BitVec.toNat_zero]
  rw [nanNarrow, fields_join]
  refine ⟨rfl, rfl, ?_⟩
  simp only [nanMantissa, ← htop]
  split
  · rfl
  · exact toNat_mantissa_top m

/-- What the narrowing makes of a non-finite double: sign kept, an infinity for an infinity and a NaN for a NaN. -/
theorem fields_narrow_of_nonfinite {d : BitVec 64} (h : (fields .double d).exponent.toNat = 2047) :
    (fields .single (narrow d)).sign = (fields .double d).sign ∧
    (fields .single (narrow d)).exponent = 255#8 ∧
    (fields .single (narrow d)).mantissa.toNat =
      if (fields .double d).mantissa.toNat = 0 then 0 else nanMantissa (fields .double d).mantissa.toNat := by
  have hexp : (fields .double d).exponent = 2047#11 := BitVec.eq_of_toNat_eq h
  simp only [narrow, if_pos hexp]
  split
  case isTrue hm =>
    rw [fields_join, hm]
    exact ⟨rfl, rfl, rfl⟩
  case isFalse hm =>
    have hm0 : (fields .double d).mantissa.toNat ≠ 0 := fun h0 => hm (BitVec.eq_of_toNat_eq h0)
    rw [if_neg hm0]
    exact fields_nanNarrow _ _

/-- A non-finite triple denotes an infinity where its mantissa is zero, and no number elsewhere. -/
theorem denote_of_nonfinite {p : Precision} {t : FieldTriple p} (h : t.exponent.toNat = expMaxOf p) :
    t.denote = if t.mantissa.toNat = 0 then .infinity (t.sign = 1#1) else .notANumber := by
  have hmax : expMaxOf p ≠ 0 := by cases p <;> decide
  by_cases hm : t.mantissa.toNat = 0
  · simp only [FieldTriple.denote, FieldTriple.classify, h, hm, if_neg hmax, if_true]
  · simp only [FieldTriple.denote, FieldTriple.classify, h, hm, if_neg hmax, if_true, if_false]

/-- A pattern is a NaN when its exponent is EMAX and its mantissa is not zero (40_fields.md R103). -/
theorem classify_eq_nan_iff (p : Precision) (raw : RawBits p) :
    classify p raw = .nan ↔ (fields p raw).exponent.toNat = expMaxOf p ∧ (fields p raw).mantissa.toNat ≠ 0 := by
  have hmax : expMaxOf p ≠ 0 := by cases p <;> decide
  rw [classify, FieldTriple.classify]
  split
  case isTrue h0 =>
    have he : (fields p raw).exponent.toNat ≠ expMaxOf p := fun h => hmax (h.symm.trans h0)
    exact iff_of_false (by split <;> exact nofun) fun h => he h.1
  case isFalse =>
    split
    case isTrue he =>
      split
      case isTrue hm => exact iff_of_false nofun fun h => h.2 hm
      case isFalse hm => exact iff_of_true rfl ⟨he, hm⟩
    case isFalse he => exact iff_of_false nofun fun h => he h.1

/-- A pattern is determined by its fields. -/
theorem eq_of_fields_eq {p : Precision} {raw raw' : RawBits p} (h : fields p raw = fields p raw') : raw = raw' := by
  rw [← join_fields p raw, h, join_fields]

/-! ### Narrowing undoes widening, and widening keeps the number (42_decoder.md R166, R173) -/

/-- Narrowing undoes widening on a non-finite single: the mantissa goes up 29 bits and comes down again, and where it is not
zero its top 23 bits are not. -/
theorem narrow_widen_of_nonfinite {f : BitVec 32} (h : (fields .single f).exponent.toNat = 255) :
    narrow (widen f) = f := by
  obtain ⟨hsign, hexp, hman⟩ := fields_widen_of_nonfinite h
  obtain ⟨hsign', hexp', hman'⟩ := fields_narrow_of_nonfinite (d := widen f) (by rw [hexp]; rfl)
  have hmantissa : (fields .single (narrow (widen f))).mantissa.toNat = (fields .single f).mantissa.toNat := by
    rw [hman', hman]
    split
    case isTrue hzero => omega
    case isFalse hzero => exact nanMantissa_mul (by omega)
  exact eq_of_fields_eq (p := .single)
    (FieldTriple.eq_of_toNat_eq (by rw [hsign', hsign]) (by rw [hexp', h]; rfl) hmantissa)

/-- Narrowing undoes widening, whatever the class. -/
@[simp] theorem narrow_widen (f : BitVec 32) : narrow (widen f) = f := by
  by_cases h : (fields .single f).exponent.toNat = 255
  · exact narrow_widen_of_nonfinite h
  · exact narrow_widen_of_finite h

/-- Settles O34. -/
theorem narrowUndoesWiden : Obligations.NarrowUndoesWiden := narrow_widen

/-- Widening keeps what a single denotes: a finite single keeps its number, a non-finite one its sign and whether its mantissa
is zero. -/
theorem denote_widen (f : BitVec 32) : denote .double (widen f) = denote .single f := by
  by_cases h : (fields .single f).exponent.toNat = 255
  · obtain ⟨hsign, hexp, hman⟩ := fields_widen_of_nonfinite h
    have hzero : (fields .single f).mantissa.toNat * 2 ^ 29 = 0 ↔ (fields .single f).mantissa.toNat = 0 := by omega
    rw [denote, denote, denote_of_nonfinite (by rw [hexp]; rfl), denote_of_nonfinite (by rw [h]; rfl), hsign, hman]
    simp only [hzero]
  · exact denote_widen_of_finite h

/-- Settles O33. -/
theorem widenDenotesTheSame : Obligations.WidenDenotesTheSame := denote_widen

/-- Settles O32. -/
theorem nansAndInfinitiesConvert : Obligations.NansAndInfinitiesConvert := by
  refine ⟨fun d hd => ?_, by decide, by decide, fun f hf => ?_⟩
  · obtain ⟨he, hm⟩ := (classify_eq_nan_iff .double d).mp hd
    obtain ⟨hsign, hexp, hman⟩ := fields_narrow_of_nonfinite he
    rw [if_neg hm] at hman
    exact ⟨(classify_eq_nan_iff .single _).mpr ⟨by rw [hexp]; rfl, hman ▸ nanMantissa_ne_zero _⟩, hsign, hman⟩
  · obtain ⟨he, hm⟩ := (classify_eq_nan_iff .single f).mp hf
    obtain ⟨hsign, hexp, hman⟩ := fields_widen_of_nonfinite he
    exact ⟨(classify_eq_nan_iff .double _).mpr ⟨by rw [hexp]; rfl, by omega⟩, hsign, hman⟩

end Sys2Proof.Machine

namespace Sys2Proof.Machine

/-! ### The round trips of the codec (42_decoder.md R170 to R173) -/

/-- The way from a pattern to a value and back gives the pattern, at both precisions. -/
theorem toRawWith_toValue (p : Precision) (f : RawBits p) : toRawWith narrow p (toValue p f) = f := by
  cases p with
  | single => exact narrow_widen f
  | double => rfl

/-- ENC undoes DEC on every valid string (42_decoder.md R172). -/
theorem enc_of_dec_ok {p : Precision} {bits : List Chr} {v : Value} (h : dec p bits = .ok v) : enc p v = bits := by
  have hvalid := valid_of_dec_ok h
  rw [dec_of_valid hvalid, Except.ok.injEq] at h
  rw [← h, enc, encWith, toRawWith_toValue, render_parse hvalid]

/-- DEC undoes ENC at Double. -/
theorem dec_enc_double (v : Value) : dec .double (enc .double v) = .ok v := dec_encWith narrow .double v

/-- DEC of ENC at Single is the widening of the narrowing. -/
theorem dec_enc_single (v : Value) : dec .single (enc .single v) = .ok (widen (narrow v)) :=
  dec_encWith narrow .single v

/-- Settles O35: a value that comes back is the widening of its own narrowing, and a widening comes back because narrowing
undoes it. -/
theorem valueStringValueRoundTrip : Obligations.ValueStringValueRoundTrip := by
  refine ⟨dec_enc_double, dec_enc_single, fun v => ?_⟩
  rw [dec_enc_single, Except.ok.injEq]
  constructor
  · intro h
    exact ⟨narrow v, h.symm⟩
  · rintro ⟨f, rfl⟩
    rw [narrow_widen]

/-- Settles O36. -/
theorem stringValueStringRoundTrip : Obligations.StringValueStringRoundTrip := fun _ _ h =>
  ⟨_, dec_of_valid h, enc_of_dec_ok (dec_of_valid h)⟩

/-- Settles O37: widening keeps the number, and a non-zero number has one double pattern; the zeros' widenings are computed. -/
theorem exactNarrowingRoundTrips : Obligations.ExactNarrowingRoundTrips := by
  refine ⟨fun nar v q hq hv hnar => ?_, fun nar => ⟨fun h => ?_, fun h => ?_⟩⟩
  · have hwiden : denote .double (widen (nar v)) = .number q := (denote_widen (nar v)).trans hnar
    rw [dec_encWith]
    exact congrArg Except.ok (denote_double_injective hq hwiden hv)
  · have hwiden : widen 0x80000000#32 = 0x8000000000000000#64 := by decide
    rw [dec_encWith, toRawWith, h]
    exact congrArg Except.ok hwiden
  · have hwiden : widen 0x00000000#32 = 0x0000000000000000#64 := by decide
    rw [dec_encWith, toRawWith, h]
    exact congrArg Except.ok hwiden

/-- Settles O38: each direction of the round trip makes the other function injective. -/
theorem codecInjectivity : Obligations.CodecInjectivity := by
  refine ⟨fun v w h => ?_, fun v => ⟨enc .double v, valid_enc .double v, dec_enc_double v⟩, fun p a b v ha hb => ?_,
    fun p bits h => ⟨_, dec_of_valid h⟩⟩
  · have hdec := congrArg (dec .double) h
    rwa [dec_enc_double, dec_enc_double, Except.ok.injEq] at hdec
  · rw [← enc_of_dec_ok ha, enc_of_dec_ok hb]

end Sys2Proof.Machine

namespace Sys2Proof

open Machine

/-! ### The decoder and the encoder (30_encoding.md R61 to R65, R71) -/

/-- The code of a unit undoes the reading of the `op` field. -/
theorem Op.code_opOf : ∀ x : BitVec 2, (opOf x).code = x := by decide

/-- The decoder reads each instruction from its own word. -/
@[simp] theorem decode_encode (i : Instr) : decode (encode i) = .ok i := by cases i <;> rfl

/-- Every instruction is well formed: the widths of the two precisions are the two that the check admits. -/
theorem Instr.wf_eq_true (i : Instr) : i.wf = true := by cases i <;> rfl

/-- A word is its two fields side by side. -/
theorem cmdOp_append_cmdPrec (cmd : Cmd) : cmdOp cmd ++ cmdPrec cmd = cmd := by
  rw [cmdOp, cmdPrec, BitVec.extractLsb'_append_extractLsb'_eq_extractLsb' (by rfl)]
  exact BitVec.extractLsb'_eq_self

/-- The `prec` field that selects a precision is the one an instruction of that precision is written with. -/
theorem command_prec_of_precOf {x : BitVec 7} {i : Instr} (h : precOf x = .ok i.precision) : i.command.prec = x := by
  rcases precOf_cases x with ⟨rfl, hp⟩ | ⟨rfl, hp⟩ | ⟨-, -, hp⟩
  · rw [hp, Except.ok.injEq] at h
    rw [Instr.command, ← h]
  · rw [hp, Except.ok.injEq] at h
    rw [Instr.command, ← h]
  · rw [hp] at h
    cases h

/-- A word that decodes is the word of its instruction. -/
theorem encode_of_decode {cmd : Cmd} {i : Instr} (h : decode cmd = .ok i) : encode i = cmd := by
  obtain ⟨hprec, hop⟩ := decode_ok h
  have hcode : i.command.op.code = cmdOp cmd := by
    rw [← Op.code_opOf (cmdOp cmd), hop]
    rfl
  rw [encode, Command.encode, hcode, command_prec_of_precOf hprec, cmdOp_append_cmdPrec]

/-- A word is rejected exactly for an unsupported precision, always as PrecisionMismatch. -/
theorem decode_eq_error_iff (cmd : Cmd) (f : Failure) :
    decode cmd = .error f ↔ f = .precisionMismatch ∧ cmdPrec cmd ≠ 32#7 ∧ cmdPrec cmd ≠ 64#7 := by
  rcases precOf_cases (cmdPrec cmd) with ⟨h, hp⟩ | ⟨h, hp⟩ | ⟨h32, h64, hp⟩
  · rw [decode, hp]
    exact iff_of_false nofun fun hf => hf.2.1 h
  · rw [decode, hp]
    exact iff_of_false nofun fun hf => hf.2.2 h
  · rw [decode, hp, Except.error.injEq, eq_comm, and_iff_left ⟨h32, h64⟩]

/-- The number of the `prec` field. -/
theorem cmdPrec_toNat (cmd : Cmd) : (cmdPrec cmd).toNat = cmd.toNat % 128 := by
  rw [cmdPrec, BitVec.extractLsb'_toNat, Nat.shiftRight_zero]

/-- Settles O1. -/
theorem stepRunsDecodedInstruction : Obligations.StepRunsDecodedInstruction := by
  have hstep {s : State} {i : Instr} (h : decode s.inp.cmd = .ok i) : step s = exec i s := by simp only [step, h]
  have hword (i : Instr) : BitVec.ofNat 9 (encode i).toNat = encode i := by rw [BitVec.ofNat_toNat, BitVec.setWidth_eq]
  refine ⟨fun s i h => ⟨i.wf_eq_true, hstep h⟩, fun s i => ⟨?_, hstep ?_⟩⟩
  · have hbits : (encode i).toNat < 2 ^ 9 := (encode i).isLt
    rw [decodeTableWord, if_pos ⟨by omega, hbits⟩, hword, decode_encode]
  · rw [State.withFetchWord_cmd, hword, decode_encode]

/-- Settles O2: each word is a row of the opcode table, or one bit away from one. -/
theorem commandWordsOfTheTable : Obligations.CommandWordsOfTheTable := by
  unfold Obligations.CommandWordsOfTheTable
  decide

/-- Settles O3. -/
theorem decodeAndEncodeAgree : Obligations.DecodeAndEncodeAgree := by
  refine ⟨decode_encode, fun _ _ => encode_of_decode, fun cmd f => ?_⟩
  rw [decode_eq_error_iff, ne_eq, ne_eq, ← BitVec.toNat_inj, ← BitVec.toNat_inj, cmdPrec_toNat]
  rfl

end Sys2Proof

namespace Sys2Proof.Machine

/-! ### The step as an answer on the lanes (30_encoding.md R70)

`unitExec` is `Exec` after dispatch, `answerLanes` what a step puts on the output lanes for an outcome. Each is tied to the model
by a lemma here: `blockExec_of_decode`, `exec_eq_next` and `step_eq_next`. Every statement about steps below follows from these. -/

/-- The typed outcome of a unit at a precision. -/
def unitExec (op : Op) (p : Precision) (i : Inputs) : Except Failure Result :=
  match op with
  | .enc => .ok (.string (enc p (readValue i)))
  | .dec => (dec p (readString i)).map .value
  | .dcp => .ok (.fields p (dcp p (readRaw p i)).1 (dcp p (readRaw p i)).2)
  | .asm => .ok (.raw p (asm p (readFields p i)))

/-- A typed result on the result lanes of its unit. -/
def Outputs.driveResult (r : Result) (o : Outputs) : Outputs :=
  match r with
  | .string bits => o.driveString bits
  | .value v => o.driveValue v
  | .fields p t eunb => o.driveFields p t eunb
  | .raw p raw => o.driveRaw p raw

/-- The `status` code of an outcome (60_exceptions.md R192). -/
def outcomeCode : Except Failure Result → BitVec 2
  | .ok _ => Config.statusOk
  | .error f => failureCode f

/-- The output lanes of a step with a given outcome: its code, and a result on its lanes where there is one. -/
def answerLanes (outcome : Except Failure Result) (n : Nat) : Outputs :=
  match outcome with
  | .ok r => (Outputs.undriven Config.statusOk n).driveResult r
  | .error f => Outputs.undriven (failureCode f) n

@[simp] theorem Outputs.driveResult_status (r : Result) (o : Outputs) : (o.driveResult r).status = o.status := by
  cases r <;> rfl

@[simp] theorem answerLanes_status (outcome : Except Failure Result) (n : Nat) :
    (answerLanes outcome n).status = outcomeCode outcome := by
  cases outcome with
  | ok r => exact Outputs.driveResult_status r _
  | error f => rfl

/-- `Exec` of an instruction's word is its unit at its precision. -/
theorem blockExec_of_decode {inp : Inputs} {i : Instr} (h : decode inp.cmd = .ok i) :
    blockExec inp = unitExec i.op i.precision inp := by
  obtain ⟨hprec, hop⟩ := decode_ok h
  simp only [blockExec, hprec, hop]
  cases i.op with
  | enc => rfl
  | dec =>
    change (dec i.precision (readString inp) >>= fun v => pure (Result.value v)) =
      (dec i.precision (readString inp)).map Result.value
    cases dec i.precision (readString inp) <;> rfl
  | dcp => rfl
  | asm => rfl

/-- `Exec` of a rejected word is PrecisionMismatch, whatever the operands (60_exceptions.md R195). -/
theorem blockExec_of_decode_error {inp : Inputs} {f : Failure} (h : decode inp.cmd = .error f) :
    blockExec inp = .error .precisionMismatch := by
  simp only [blockExec, (decode_error h).2]
  rfl

/-- An instruction answers the next state whose lanes carry its unit's outcome; the input lanes stay. -/
theorem exec_eq_next (i : Instr) (s : State) :
    exec i s = .next (s.settle (answerLanes (unitExec i.op i.precision s.inp) s.freeCount)) := by
  rw [exec_eq_unit]
  cases i.op with
  | enc => rfl
  | dec =>
    simp only [runDec, unitExec]
    cases dec i.precision (readString s.inp) <;> rfl
  | dcp => rfl
  | asm => rfl

/-- A step answers the next state whose lanes carry `Exec` of the inputs; the input lanes stay. -/
theorem step_eq_next (s : State) : step s = .next (s.settle (answerLanes (blockExec s.inp) s.freeCount)) := by
  obtain ⟨i, hdecode, hstep⟩ | ⟨f, hdecode, hstep⟩ := step_cases s
  · rw [hstep, exec_eq_next, blockExec_of_decode hdecode]
  · rw [hstep, blockExec_of_decode_error hdecode, (decode_error hdecode).1]
    rfl

/-! ### Reading the lanes back -/

/-- Widening a word to a lane and taking its low bits back gives the word. -/
theorem setWidth_setWidth_self {w l : Nat} (x : BitVec w) (h : w ≤ l) : (x.setWidth l).setWidth w = x := by
  rw [BitVec.setWidth_setWidth_of_le x h, BitVec.setWidth_eq]

theorem expWidthOf_le (p : Precision) : expWidthOf p ≤ 11 := by cases p <;> decide
theorem manWidthOf_le (p : Precision) : manWidthOf p ≤ 52 := by cases p <;> decide

/-- What a unit drives onto its result lanes is what the host reads there. -/
theorem readResult_driveResult {op : Op} {p : Precision} {i : Inputs} {r : Result} (h : unitExec op p i = .ok r)
    (o : Outputs) : readResult op p (o.driveResult r) = r := by
  cases op with
  | enc =>
    cases h
    exact congrArg Result.string (laneString_driven _ (by rw [enc_length]; exact widthOf_le_lanes p))
  | dec =>
    rw [unitExec] at h
    cases hdec : dec p (readString i) with
    | ok v =>
      rw [hdec] at h
      cases h
      rfl
    | error f =>
      rw [hdec] at h
      cases h
  | dcp =>
    cases h
    simp only [readResult, Outputs.driveResult, Outputs.driveFields_signOut, Outputs.driveFields_expOut,
      Outputs.driveFields_manOut, Outputs.driveFields_eunbOut, setWidth_setWidth_self _ (expWidthOf_le p),
      setWidth_setWidth_self _ (manWidthOf_le p)]
  | asm =>
    cases h
    simp only [readResult, Outputs.driveResult, Outputs.driveRaw_rawOut, setWidth_setWidth_self _ (widthOf_le_lanes p)]

/-- Lanes with a failure's code state that failure. -/
theorem observe_of_failure {cmd : Cmd} {o : Outputs} {f : Failure} (h : o.status = failureCode f) :
    observe cmd o = some (.error f) := by
  rw [observe, h]
  cases f <;> rfl

/-- Lanes with status OK beside an instruction's word state the result on that instruction's lanes. -/
theorem observe_of_ok {cmd : Cmd} {o : Outputs} {i : Instr} (hcmd : decode cmd = .ok i)
    (h : o.status = Config.statusOk) : observe cmd o = some (.ok (readResult i.op i.precision o)) := by
  obtain ⟨hprec, hop⟩ := decode_ok hcmd
  rw [observe, h, hprec, hop]
  rfl

/-- The lanes of a step's answer state `Exec` of the inputs. -/
theorem observe_answerLanes (inp : Inputs) (n : Nat) :
    observe inp.cmd (answerLanes (blockExec inp) n) = some (blockExec inp) := by
  cases hexec : blockExec inp with
  | error f => exact observe_of_failure (answerLanes_status _ n)
  | ok r =>
    cases hdecode : decode inp.cmd with
    | error f =>
      rw [blockExec_of_decode_error hdecode] at hexec
      cases hexec
    | ok i =>
      rw [blockExec_of_decode hdecode] at hexec
      rw [observe_of_ok hdecode (answerLanes_status _ n)]
      exact congrArg (some ∘ Except.ok) (readResult_driveResult hexec _)

/-- Settles O39. -/
theorem stepRefinesTypedExec : Obligations.StepRefinesTypedExec := fun s =>
  ⟨_, step_eq_next s, rfl, observe_answerLanes s.inp s.freeCount⟩

/-- Settles O42, by induction on the list of operations: each step settles on `Exec` of what was presented to it. -/
theorem runsArePointwiseExec : Obligations.RunsArePointwiseExec := by
  intro s rs
  induction rs generalizing s with
  | nil => rfl
  | cons r rs ih =>
    obtain ⟨t, hstep, hinp, hsettled⟩ := stepRefinesTypedExec (s.present r)
    rw [Settled, hinp, State.present_inp] at hsettled
    simp only [runHost, transact, hstep, hsettled, ih, List.map_cons]

/-! ### Only the operands matter (30_encoding.md R67, R68) -/

/-- Two length lanes and two sets of character lanes that agree as far as DEC at precision `p` looks give one outcome. -/
theorem dec_readString_congr {p : Precision} {a b : Inputs} (hlen : a.strInLen = b.strInLen)
    (hchr : a.strInLen.toNat = widthOf p →
      ∀ (i : Nat) (h : i < 64), i < widthOf p → a.strInChr[i] = b.strInChr[i]) :
    dec p (readString a) = dec p (readString b) := by
  have hlengthA : (readString a).length = a.strInLen.toNat := laneString_length _ _
  have hlengthB : (readString b).length = a.strInLen.toNat := by rw [hlen]; exact laneString_length _ _
  by_cases hW : a.strInLen.toNat = widthOf p
  · congr 1
    refine List.ext_getElem? fun i => ?_
    by_cases hi : i < widthOf p
    · have h64 : i < 64 := hi.trans_le (widthOf_le_lanes p)
      rw [readString, readString, laneString_getElem? _ _ (by omega) h64, laneString_getElem? _ _ (by rw [← hlen]; omega) h64,
        hchr hW i h64 hi]
    · rw [List.getElem?_eq_none (by omega), List.getElem?_eq_none (by omega)]
  · have hinvalid {bits : List Chr} (h : bits.length = a.strInLen.toNat) : dec p bits = .error .invalidBitString :=
      (dec_eq_invalidBitString_iff p bits).mpr fun hv => hW (h ▸ ((valid_iff _ _).mp hv).1)
    rw [hinvalid hlengthA, hinvalid hlengthB]

/-- Two lanes with the same low bits are read as the same operand. -/
theorem setWidth_eq_of_extractLsb'_eq {n m : Nat} {x y : BitVec n} (hm : m ≤ n)
    (h : x.extractLsb' 0 m = y.extractLsb' 0 m) : x.setWidth m = y.setWidth m := by
  rwa [BitVec.setWidth_eq_extractLsb' hm, BitVec.setWidth_eq_extractLsb' hm]

/-- Inputs with the same operands have the same typed outcome, instruction by instruction. -/
theorem blockExec_congr {a b : Inputs} (h : SameOperands a b) : blockExec a = blockExec b := by
  obtain ⟨hcmd, hoperands⟩ := h
  cases hdecode : decode a.cmd with
  | error f => rw [blockExec_of_decode_error hdecode, blockExec_of_decode_error (hcmd ▸ hdecode)]
  | ok i =>
    rw [blockExec_of_decode hdecode, blockExec_of_decode (hcmd ▸ hdecode)]
    rw [hdecode] at hoperands
    cases i with
    | enc32 | enc64 => exact congrArg (fun v => Except.ok (Result.string (enc _ v))) hoperands
    | dec32 =>
      obtain ⟨hlen, hchr⟩ := hoperands
      exact congrArg (Except.map Result.value) (dec_readString_congr (p := .single) hlen fun hW i _ hi =>
        hchr (BitVec.eq_of_toNat_eq hW) i hi)
    | dec64 =>
      obtain ⟨hlen, hchr⟩ := hoperands
      exact congrArg (Except.map Result.value) (dec_readString_congr (p := .double) hlen fun hW i _ hi =>
        hchr (BitVec.eq_of_toNat_eq hW) i hi)
    | dcp32 =>
      have hraw : readRaw .single a = readRaw .single b := setWidth_eq_of_extractLsb'_eq (by decide) hoperands
      simp only [Instr.op, Instr.precision, unitExec, hraw]
    | dcp64 =>
      have hraw : readRaw .double a = readRaw .double b := congrArg (BitVec.setWidth 64) hoperands
      simp only [Instr.op, Instr.precision, unitExec, hraw]
    | asm32 =>
      obtain ⟨hsign, hexp, hman⟩ := hoperands
      simp only [Instr.op, Instr.precision, unitExec, readFields, hsign,
        setWidth_eq_of_extractLsb'_eq (show expWidthOf .single ≤ 11 by decide) hexp,
        setWidth_eq_of_extractLsb'_eq (show manWidthOf .single ≤ 52 by decide) hman]
    | asm64 =>
      obtain ⟨hsign, hexp, hman⟩ := hoperands
      simp only [Instr.op, Instr.precision, unitExec, readFields, hsign, hexp, hman]

/-- Settles O43: the step's lanes state `Exec` of the inputs, which sees the operands only. -/
theorem onlyOperandsMatter : Obligations.OnlyOperandsMatter := by
  intro s s' t t' a b hsame ht ht'
  rw [transact, step_eq_next, State.present_inp] at ht ht'
  cases ht
  cases ht'
  constructor
  · exact (observe_answerLanes a _).trans ((congrArg some (blockExec_congr hsame)).trans (observe_answerLanes b _).symm)
  · simp only [State.settle_out, answerLanes_status, blockExec_congr hsame]

end Sys2Proof.Machine

namespace Sys2Proof.Machine

/-! ### Failures: which outcome is one, and what `status` says of it (60_exceptions.md R190 to R195) -/

/-- A status code of a failure is that failure's own. -/
theorem outcomeCode_eq_failureCode_iff (outcome : Except Failure Result) (f : Failure) :
    outcomeCode outcome = failureCode f ↔ outcome = .error f := by
  cases outcome with
  | ok r =>
    have hcode : Config.statusOk ≠ failureCode f := by cases f <;> decide
    exact iff_of_false hcode nofun
  | error g => cases f <;> cases g <;> decide

/-- Status OK is the code of no failure. -/
theorem outcomeCode_eq_ok {outcome : Except Failure Result} (h : outcomeCode outcome = Config.statusOk) :
    ∃ r, outcome = .ok r := by
  cases outcome with
  | ok r => exact ⟨r, rfl⟩
  | error f => cases f <;> cases h

/-- No outcome has the fourth code. -/
theorem outcomeCode_ne_three (outcome : Except Failure Result) : outcomeCode outcome ≠ 3#2 := by
  cases outcome with
  | ok r => exact (by decide : Config.statusOk ≠ 3#2)
  | error f => cases f <;> decide

/-- A unit fails exactly where it is DEC and its string is not valid, always with InvalidBitString. -/
theorem unitExec_eq_error_iff (op : Op) (p : Precision) (i : Inputs) (f : Failure) :
    unitExec op p i = .error f ↔ f = .invalidBitString ∧ op = .dec ∧ valid (widthOf p) (readString i) = false := by
  cases op with
  | enc | dcp | asm => exact iff_of_false nofun fun h => nomatch h.2.1
  | dec =>
    rw [unitExec]
    cases hvalid : valid (widthOf p) (readString i) with
    | true =>
      rw [dec_of_valid hvalid]
      exact iff_of_false nofun fun h => nomatch h.2.2
    | false =>
      rw [(dec_eq_invalidBitString_iff p _).mpr (by rw [hvalid]; decide), Except.map, Except.error.injEq]
      exact ⟨fun h => ⟨h.symm, rfl, rfl⟩, fun h => h.1.symm⟩

/-- `Exec` ends with PrecisionMismatch exactly for an unsupported precision (60_exceptions.md R191, R195). -/
theorem blockExec_eq_precisionMismatch_iff (inp : Inputs) :
    blockExec inp = .error .precisionMismatch ↔ cmdPrec inp.cmd ≠ 32#7 ∧ cmdPrec inp.cmd ≠ 64#7 := by
  have hreject := decode_eq_error_iff inp.cmd .precisionMismatch
  cases hdecode : decode inp.cmd with
  | error f =>
    rw [blockExec_of_decode_error hdecode]
    exact iff_of_true rfl ((decode_eq_error_iff _ _).mp hdecode).2
  | ok i =>
    rw [blockExec_of_decode hdecode, unitExec_eq_error_iff]
    rw [hdecode] at hreject
    exact iff_of_false (fun h => nomatch h.1) fun h => nomatch hreject.mpr ⟨rfl, h⟩

/-- `Exec` ends with InvalidBitString exactly for a DEC of a string that is not valid (60_exceptions.md R190). -/
theorem blockExec_eq_invalidBitString_iff (inp : Inputs) :
    blockExec inp = .error .invalidBitString ↔
      ∃ p, decode inp.cmd = .ok (Instr.of .dec p) ∧ valid (widthOf p) (readString inp) = false := by
  cases hdecode : decode inp.cmd with
  | error f =>
    rw [blockExec_of_decode_error hdecode]
    exact iff_of_false nofun fun ⟨_, h, _⟩ => nomatch h
  | ok i =>
    rw [blockExec_of_decode hdecode, unitExec_eq_error_iff]
    constructor
    · rintro ⟨-, hop, hvalid⟩
      exact ⟨i.precision, by rw [← hop, Instr.of_op_precision], hvalid⟩
    · rintro ⟨p, hi, hvalid⟩
      cases hi
      rw [Instr.op_of, Instr.precision_of]
      exact ⟨rfl, rfl, hvalid⟩

/-- Settles O4. -/
theorem precisionMismatchFirst : Obligations.PrecisionMismatchFirst := by
  intro s
  refine ⟨_, step_eq_next s, rfl, ?_⟩
  rw [State.settle_out, answerLanes_status]
  exact (outcomeCode_eq_failureCode_iff _ .precisionMismatch).trans (blockExec_eq_precisionMismatch_iff s.inp)

/-- Settles O5. -/
theorem stepAlwaysAnswers : Obligations.StepAlwaysAnswers := by
  intro s
  refine ⟨_, step_eq_next s, rfl, ?_⟩
  rw [State.settle_out, answerLanes_status]
  exact ⟨outcomeCode_ne_three _,
    (outcomeCode_eq_failureCode_iff _ .invalidBitString).trans (blockExec_eq_invalidBitString_iff s.inp)⟩

/-- A DEC on lanes whose string is not valid answers with InvalidBitString, the input lanes unchanged. -/
theorem exec_dec_refuses {i : Instr} (hop : i.op = .dec) {s : State}
    (h : ¬ valid (widthOf i.precision) (readString s.inp) = true) :
    ∃ t, exec i s = .next t ∧ t.inp = s.inp ∧ t.out.status = Config.statusInvalidBitString := by
  refine ⟨_, exec_eq_next i s, rfl, ?_⟩
  rw [State.settle_out, answerLanes_status, (unitExec_eq_error_iff _ _ _ _).mpr ⟨rfl, hop, Bool.eq_false_of_not_eq_true h⟩]
  rfl

/-- A stated length other than W, or a lane below W that holds neither code, makes the input string not valid. -/
theorem not_valid_readString {p : Precision} {i : Inputs}
    (h : i.strInLen ≠ BitVec.ofNat 8 (widthOf p) ∨
      ∃ (lane : Nat) (hlane : lane < widthOf p), i.strInChr[lane]'(hlane.trans_le (widthOf_le_lanes p)) ≠ Config.ch0 ∧
        i.strInChr[lane]'(hlane.trans_le (widthOf_le_lanes p)) ≠ Config.ch1) :
    ¬ valid (widthOf p) (readString i) = true := by
  intro hvalid
  obtain ⟨hlen, hbinary⟩ := (valid_readString_iff p i).mp hvalid
  rcases h with hne | ⟨lane, hlane, h0, h1⟩
  · exact hne (by rw [← hlen, BitVec.ofNat_toNat, BitVec.setWidth_eq])
  · exact (hbinary lane _ hlane).elim h0 h1

/-- Settles O10. -/
theorem decRefusesOtherStrings : Obligations.DecRefusesOtherStrings := fun _ =>
  ⟨fun h => exec_dec_refuses rfl (not_valid_readString (p := .single) h),
    fun h => exec_dec_refuses rfl (not_valid_readString (p := .double) h)⟩

/-! ### The result lanes after each unit (30_encoding.md R66 to R68) -/

/-- The characters ENC drives: the bits of the pattern from the top, and zero past the end. -/
theorem strOutChr_driveString_enc (p : Precision) (v : Value) (o : Outputs) (lane : Nat) (h : lane < 64) :
    (o.driveString (enc p v)).strOutChr[lane] =
      if lane < widthOf p then chrOfBit ((toRawWith narrow p v).getLsbD (widthOf p - 1 - lane)) else 0#8 := by
  simp only [Outputs.driveString_strOutChr]
  rw [Vector.getElem_ofFn, enc, encWith, render_getElem?]
  split <;> rfl

/-- The length ENC drives. -/
theorem strOutLen_driveString_enc (p : Precision) (v : Value) (o : Outputs) :
    (o.driveString (enc p v)).strOutLen = BitVec.ofNat 8 (widthOf p) := by
  rw [Outputs.driveString_strOutLen, enc_length]

/-- The exponent lane DCP drives holds the exponent, zero above it. -/
theorem expOut_driveFields_toNat (p : Precision) (t : FieldTriple p) (e : BitVec 12) (o : Outputs) :
    (o.driveFields p t e).expOut.toNat = t.exponent.toNat :=
  BitVec.toNat_setWidth_of_le (expWidthOf_le p)

/-- The mantissa lane DCP drives holds the mantissa, zero above it. -/
theorem manOut_driveFields_toNat (p : Precision) (t : FieldTriple p) (e : BitVec 12) (o : Outputs) :
    (o.driveFields p t e).manOut.toNat = t.mantissa.toNat :=
  BitVec.toNat_setWidth_of_le (manWidthOf_le p)

/-- The lane ASM drives holds the pattern, zero above it. -/
theorem rawOut_driveRaw_toNat (p : Precision) (raw : RawBits p) (o : Outputs) :
    (o.driveRaw p raw).rawOut.toNat = raw.toNat :=
  BitVec.toNat_setWidth_of_le (widthOf_le_lanes p)

/-- A completed unit leaves its own result lanes clean, whatever they held. -/
theorem resultLanesClean_settle {s : State} (n : Nat) :
    ResultLanesClean (s.settle (answerLanes (blockExec s.inp) n)) := by
  intro i hdecode hok
  rw [State.settle_inp] at hdecode
  rw [State.settle_out, answerLanes_status, blockExec_of_decode hdecode] at hok
  obtain ⟨r, hr⟩ := outcomeCode_eq_ok hok
  rw [State.settle_out, blockExec_of_decode hdecode, hr]
  generalize i.op = op at hr ⊢
  generalize i.precision = p at hr ⊢
  cases op with
  | enc =>
    cases hr
    refine ⟨?_, fun lane h => ?_⟩
    · simp only [answerLanes, Outputs.driveResult, strOutLen_driveString_enc]
      cases p <;> rfl
    · simp only [answerLanes, Outputs.driveResult, strOutChr_driveString_enc]
      refine ⟨fun hlane => ?_, fun hlane => ?_⟩
      · rw [if_pos hlane, isBinary_iff]
        exact chrOfBit_binary _
      · rw [if_neg (by omega)]
  | dec => trivial
  | dcp =>
    cases hr
    simp only [answerLanes, Outputs.driveResult, expOut_driveFields_toNat, manOut_driveFields_toNat]
    exact ⟨BitVec.isLt _, BitVec.isLt _⟩
  | asm =>
    cases hr
    simp only [answerLanes, Outputs.driveResult, rawOut_driveRaw_toNat]
    exact BitVec.isLt _

/-- Every step from any state leaves the interface invariant. -/
theorem interfaceInv_settle (s : State) :
    InterfaceInv (s.settle (answerLanes (blockExec s.inp) s.freeCount)) := by
  refine ⟨observe_answerLanes s.inp s.freeCount, resultLanesClean_settle _, ?_⟩
  rw [State.settle_out, answerLanes_status]
  exact outcomeCode_ne_three _

/-- Settles O40: the block keeps nothing, so a step leaves the invariant even where it did not hold before. -/
theorem stepKeepsInterfaceInv : Obligations.StepKeepsInterfaceInv := by
  intro s t _ hstep
  rw [step_eq_next] at hstep
  cases hstep
  exact interfaceInv_settle s

/-- Settles O41: the command word at reset is rejected, so status 2 is its outcome and no result lane belongs to anyone. -/
theorem resetMeetsInterfaceInv : Obligations.ResetMeetsInterfaceInv := by
  have hreject : decode State.reset.inp.cmd = .error .precisionMismatch := by decide
  refine ⟨⟨?_, ?_, by decide⟩, fun l => rfl⟩
  · rw [Settled, blockExec_of_decode_error hreject]
    exact observe_of_failure rfl
  · intro i hi
    rw [hreject] at hi
    cases hi

end Sys2Proof.Machine

namespace Sys2Proof.Machine

/-! ### Each instruction on the lanes (40_fields.md, 41_encoder.md, 42_decoder.md)

`exec_eq_next` gives the answered lanes of every instruction at once; each statement reads one unit's result lanes off it. -/

/-- An instruction whose unit completes answers with status OK, the input lanes unchanged, and its result driven. -/
theorem exec_completes {i : Instr} {s : State} {r : Result} (h : unitExec i.op i.precision s.inp = .ok r) :
    ∃ t, exec i s = .next t ∧ t.inp = s.inp ∧ t.out.status = Config.statusOk ∧
      ∃ o : Outputs, t.out = o.driveResult r := by
  refine ⟨_, exec_eq_next i s, rfl, ?_, Outputs.undriven Config.statusOk s.freeCount, ?_⟩
  · rw [State.settle_out, answerLanes_status, h]
    rfl
  · rw [State.settle_out, h]
    rfl

/-- ENC completes with the bits of the pattern from the top, one character each, and zero past the end. -/
theorem exec_enc_completes {i : Instr} {p : Precision} (hi : i = Instr.of .enc p) (s : State) :
    ∃ t, exec i s = .next t ∧ t.inp = s.inp ∧ t.out.status = Config.statusOk ∧
      t.out.strOutLen = BitVec.ofNat 8 (widthOf p) ∧
      ∀ (lane : Nat) (h : lane < 64), t.out.strOutChr[lane] =
        if lane < widthOf p then chrOfBit ((toRawWith narrow p s.inp.valIn).getLsbD (widthOf p - 1 - lane)) else 0#8 := by
  subst hi
  have hunit : unitExec (Instr.of .enc p).op (Instr.of .enc p).precision s.inp = .ok (.string (enc p s.inp.valIn)) := by
    rw [Instr.op_of, Instr.precision_of]
    rfl
  obtain ⟨t, hnext, hinp, hstatus, o, hout⟩ := exec_completes hunit
  refine ⟨t, hnext, hinp, hstatus, ?_⟩
  simp only [hout, Outputs.driveResult]
  exact ⟨strOutLen_driveString_enc p _ o, strOutChr_driveString_enc p _ o⟩

/-- Settles O6: at Double the pattern is the value, and no lane is past the end. -/
theorem enc64WritesTheValuesBits : Obligations.Enc64WritesTheValuesBits := by
  intro s
  obtain ⟨t, hnext, hinp, hstatus, hlen, hchr⟩ := exec_enc_completes (p := .double) rfl s
  exact ⟨t, hnext, hinp, hstatus, hlen, fun i hi => (hchr i hi).trans (if_pos hi)⟩

/-- Settles O7: at Single the pattern is the narrowed value. -/
theorem enc32WritesTheNarrowedBits : Obligations.Enc32WritesTheNarrowedBits := exec_enc_completes (p := .single) rfl

/-- DEC on lanes that hold a valid string: it completes with the value of the pattern whose bit `W - 1 - i` is character i. -/
theorem exec_dec_completes {i : Instr} {p : Precision} (hi : i = Instr.of .dec p) {s : State}
    (hlen : s.inp.strInLen.toNat = widthOf p)
    (hbinary : ∀ (lane : Nat) (h : lane < 64), lane < widthOf p →
      s.inp.strInChr[lane] = Config.ch0 ∨ s.inp.strInChr[lane] = Config.ch1) :
    ∃ t, exec i s = .next t ∧ t.inp = s.inp ∧ t.out.status = Config.statusOk ∧
      ∃ f : RawBits p, t.out.valOut = toValue p f ∧
        ∀ (lane : Nat) (h : lane < 64), lane < widthOf p →
          f.getLsbD (widthOf p - 1 - lane) = decide (s.inp.strInChr[lane] = Config.ch1) := by
  subst hi
  have hvalid := (valid_readString_iff p s.inp).mpr ⟨hlen, hbinary⟩
  have hunit : unitExec (Instr.of .dec p).op (Instr.of .dec p).precision s.inp =
      .ok (.value (toValue p (parse (widthOf p) (readString s.inp)))) := by
    rw [Instr.op_of, Instr.precision_of, unitExec, dec_of_valid hvalid]
    rfl
  obtain ⟨t, hnext, hinp, hstatus, o, hout⟩ := exec_completes hunit
  refine ⟨t, hnext, hinp, hstatus, parse (widthOf p) (readString s.inp), ?_, fun lane h hlane => ?_⟩
  · rw [hout]
    rfl
  · rw [parse_getLsbD ((valid_iff _ _).mp hvalid).1 hlane, readString, laneString_getElem? _ _ (by omega) h]
    simp only [Option.some_inj]

/-- Settles O8. -/
theorem dec64ReadsTheStringsBits : Obligations.Dec64ReadsTheStringsBits := by
  intro s hlen hbinary
  obtain ⟨t, hnext, hinp, hstatus, f, hval, hbits⟩ :=
    exec_dec_completes (p := .double) rfl (congrArg BitVec.toNat hlen) fun lane h _ => hbinary lane h
  refine ⟨t, hnext, hinp, hstatus, fun i hi => ?_⟩
  rw [hval]
  exact hbits i hi hi

/-- Settles O9. -/
theorem dec32WidensTheStringsBits : Obligations.Dec32WidensTheStringsBits := by
  intro s hlen hbinary
  obtain ⟨t, hnext, hinp, hstatus, f, hval, hbits⟩ :=
    exec_dec_completes (p := .single) rfl (congrArg BitVec.toNat hlen) fun lane _ hlane => hbinary lane hlane
  exact ⟨t, hnext, hinp, hstatus, f, hval, fun i hi => hbits i (by omega) hi⟩

/-- Every stored exponent minus the bias lies within twelve bits of two's complement (40_fields.md R100). -/
theorem signedExponent_toInt (p : Precision) (e : BitVec (expWidthOf p)) :
    (signedExponent p e).toInt = (e.toNat : Int) - biasOf p := by
  have he : e.toNat < 2 ^ 11 := e.isLt.trans_le (Nat.pow_le_pow_right (by decide) (expWidthOf_le p))
  have hbias : 0 < biasOf p ∧ biasOf p ≤ 1023 := by cases p <;> decide
  rw [signedExponent]
  exact BitVec.toInt_ofInt_eq_self (by decide) (by omega) (by omega)

/-- Settles O27. -/
theorem signedExponentExact : Obligations.SignedExponentExact := by
  refine fun p e => ⟨signedExponent_toInt p e, ?_⟩
  rw [signedExponent_toInt, Int.sub_add_cancel, BitVec.ofInt_natCast, BitVec.ofNat_toNat, BitVec.setWidth_eq]

/-- DCP completes with the fields of its operand on its lanes. -/
theorem exec_dcp_completes {i : Instr} {p : Precision} (hi : i = Instr.of .dcp p) (s : State) :
    ∃ t, exec i s = .next t ∧ t.inp = s.inp ∧ t.out.status = Config.statusOk ∧
      t.out.signOut.toNat = (readRaw p s.inp).toNat / 2 ^ (widthOf p - 1) ∧
      t.out.expOut.toNat = (readRaw p s.inp).toNat / 2 ^ manWidthOf p % 2 ^ expWidthOf p ∧
      t.out.manOut.toNat = (readRaw p s.inp).toNat % 2 ^ manWidthOf p ∧
      t.out.eunbOut.toInt = ((readRaw p s.inp).toNat / 2 ^ manWidthOf p % 2 ^ expWidthOf p : Nat) - (biasOf p : Int) := by
  subst hi
  have hunit : unitExec (Instr.of .dcp p).op (Instr.of .dcp p).precision s.inp =
      .ok (.fields p (fields p (readRaw p s.inp)) (signedExponent p (fields p (readRaw p s.inp)).exponent)) := by
    rw [Instr.op_of, Instr.precision_of]
    rfl
  obtain ⟨t, hnext, hinp, hstatus, o, hout⟩ := exec_completes hunit
  refine ⟨t, hnext, hinp, hstatus, ?_⟩
  simp only [hout, Outputs.driveResult, Outputs.driveFields_signOut, expOut_driveFields_toNat, manOut_driveFields_toNat,
    Outputs.driveFields_eunbOut, signedExponent_toInt]
  rw [fields_sign_toNat, fields_exponent_toNat, fields_mantissa_toNat]
  exact ⟨rfl, rfl, rfl, rfl⟩

/-- ASM completes with its operands joined on its lane. -/
theorem exec_asm_completes {i : Instr} {p : Precision} (hi : i = Instr.of .asm p) (s : State) :
    ∃ t, exec i s = .next t ∧ t.inp = s.inp ∧ t.out.status = Config.statusOk ∧
      t.out.rawOut.toNat = s.inp.signIn.toNat * 2 ^ (widthOf p - 1) +
        s.inp.expIn.toNat % 2 ^ expWidthOf p * 2 ^ manWidthOf p + s.inp.manIn.toNat % 2 ^ manWidthOf p := by
  subst hi
  have hunit : unitExec (Instr.of .asm p).op (Instr.of .asm p).precision s.inp =
      .ok (.raw p (join p (readFields p s.inp))) := by
    rw [Instr.op_of, Instr.precision_of]
    rfl
  obtain ⟨t, hnext, hinp, hstatus, o, hout⟩ := exec_completes hunit
  refine ⟨t, hnext, hinp, hstatus, ?_⟩
  simp only [hout, Outputs.driveResult, rawOut_driveRaw_toNat, join_toNat, readFields, BitVec.toNat_setWidth]

/-- Settles O11: the operand is `raw_in` modulo `2 ^ 32`, and no field looks above that. -/
theorem dcp32SelectsTheFields : Obligations.Dcp32SelectsTheFields := by
  intro s
  obtain ⟨t, hnext, hinp, hstatus, hsign, hexp, hman, heunb⟩ := exec_dcp_completes (p := .single) rfl s
  have hraw : (readRaw .single s.inp).toNat = s.inp.rawIn.toNat % 2 ^ 32 := BitVec.toNat_setWidth _ _
  rw [hraw] at hsign hexp hman heunb
  simp only [widthOf, manWidthOf, expWidthOf, biasOf] at hsign hexp hman heunb
  exact ⟨t, hnext, hinp, hstatus, by omega, by omega, by omega, by omega⟩

/-- Settles O12: the operand is `raw_in` itself. -/
theorem dcp64SelectsTheFields : Obligations.Dcp64SelectsTheFields := by
  intro s
  have hraw : readRaw .double s.inp = s.inp.rawIn := BitVec.setWidth_eq _
  rw [← hraw]
  exact exec_dcp_completes (p := .double) rfl s

/-- Settles O13. -/
theorem asm32JoinsTheFields : Obligations.Asm32JoinsTheFields := exec_asm_completes (p := .single) rfl

/-- Settles O14: at Double the exponent and mantissa lanes have no unused bit. -/
theorem asm64JoinsTheFields : Obligations.Asm64JoinsTheFields := by
  intro s
  have hexp : s.inp.expIn.toNat % 2 ^ 11 = s.inp.expIn.toNat := Nat.mod_eq_of_lt s.inp.expIn.isLt
  have hman : s.inp.manIn.toNat % 2 ^ 52 = s.inp.manIn.toNat := Nat.mod_eq_of_lt s.inp.manIn.isLt
  rw [← hexp, ← hman]
  exact exec_asm_completes (p := .double) rfl s

end Sys2Proof.Machine

namespace Sys2Proof.Machine

/-! ### Rounding: where the quotient steps up (41_encoder.md R127) -/

/-- Rounding reaches `n + 1` above the midpoint of `n` and `n + 1`, and at the midpoint itself where `n` is odd. -/
theorem succ_le_roundOff_iff {sig k : Nat} (n : Nat) (hk : 0 < k) :
    n + 1 ≤ roundOff sig k ↔
      (2 * n + 1) * 2 ^ (k - 1) < sig ∨ ((2 * n + 1) * 2 ^ (k - 1) = sig ∧ n % 2 = 1) := by
  have hhalf : 2 ^ k = 2 * 2 ^ (k - 1) := by rw [← pow_succ', Nat.sub_add_cancel hk]
  have hpos : 0 < 2 ^ (k - 1) := Nat.two_pow_pos _
  have hrem : sig % 2 ^ k < 2 ^ k := Nat.mod_lt _ (Nat.two_pow_pos _)
  have hsig : sig = 2 * (2 ^ (k - 1) * (sig / 2 ^ k)) + sig % 2 ^ k := by
    rw [← Nat.mul_assoc, ← hhalf, Nat.div_add_mod]
  have hmid : (2 * n + 1) * 2 ^ (k - 1) = 2 * (2 ^ (k - 1) * n) + 2 ^ (k - 1) := by ring
  rw [roundOff_eq, hmid]
  generalize sig / 2 ^ k = keep at *
  generalize sig % 2 ^ k = rem at *
  generalize 2 ^ (k - 1) = half at *
  rcases lt_trichotomy n keep with hn | rfl | hn
  · have hbelow : half * n + half ≤ half * keep := Nat.mul_le_mul_left half hn
    exact iff_of_true (by omega) (.inl (by omega))
  · split <;> omega
  · have habove : half * keep + half ≤ half * n := Nat.mul_le_mul_left half hn
    exact iff_of_false (by split <;> omega) (by omega)

/-- A number below `2 ^ (a + k)` rounds to at most `2 ^ a`. -/
theorem roundOff_le {sig k : Nat} (a : Nat) (hk : 0 < k) (h : sig < 2 ^ (a + k)) : roundOff sig k ≤ 2 ^ a := by
  by_contra hlt
  have hpow : 2 ^ (a + k) = 2 * 2 ^ a * 2 ^ (k - 1) := by
    rw [pow_add, Nat.mul_comm 2, Nat.mul_assoc, ← pow_succ', Nat.sub_add_cancel hk]
  have hmid : (2 * 2 ^ a + 1) * 2 ^ (k - 1) = 2 * 2 ^ a * 2 ^ (k - 1) + 2 ^ (k - 1) := Nat.succ_mul _ _
  have hstep := (succ_le_roundOff_iff (sig := sig) (2 ^ a) hk).mp (by omega)
  have hpos : 0 < 2 ^ (k - 1) := Nat.two_pow_pos _
  omega

/-- A number of at least `2 ^ (a + k)` rounds to at least `2 ^ a`. -/
theorem le_roundOff {sig k : Nat} (a : Nat) (h : 2 ^ (a + k) ≤ sig) : 2 ^ a ≤ roundOff sig k := by
  have hkeep : 2 ^ a ≤ sig / 2 ^ k := (Nat.le_div_iff_mul_le (Nat.two_pow_pos k)).mpr (by rwa [← pow_add])
  rw [roundOff_eq]
  exact hkeep.trans (Nat.le_add_right _ _)

/-- A power of two on an integer exponent and one on a natural exponent, where their product is a natural. -/
theorem zpow_mul_two_pow {i : ℤ} {m n : Nat} (h : i + m = n) : (2 : ℚ) ^ i * 2 ^ m = ((2 ^ n : ℕ) : ℚ) := by
  rw [Nat.cast_pow, Nat.cast_ofNat, ← zpow_natCast, ← zpow_natCast, ← zpow_add₀ two_ne_zero, h]

/-- The smallest subnormal at the scale of `RoundsAt.abs_mul_eq`. -/
theorem unit_scaled (shift : Nat) : (2 : ℚ) ^ (-149 : ℤ) * 2 ^ (149 + shift) = ((2 ^ shift : ℕ) : ℚ) :=
  zpow_mul_two_pow (by omega)

/-- Half the smallest subnormal at the scale of `RoundsAt.abs_mul_eq`. -/
theorem half_scaled {shift : Nat} (h : 0 < shift) :
    (2 : ℚ) ^ (-150 : ℤ) * 2 ^ (149 + shift) = ((2 ^ (shift - 1) : ℕ) : ℚ) :=
  zpow_mul_two_pow (by omega)

/-! ### A finite double as the narrowing sees it

A double of number `q` is `sig * 2^(place - 149 - shift)` in magnitude, and the singles near it are the multiples of
`2^(place - 149)`: so the narrowing drops `shift` bits of `sig`, and the rounded quotient, counted from the base of its place,
is the magnitude of the result. -/

/-- The scale at which the double `d` of number `q` is rounded. -/
structure RoundsAt (d : BitVec 64) (q : ℚ) (sig shift place : Nat) : Prop where
  shift_pos : 0 < shift
  sig_lt : sig < 2 ^ (24 + shift)
  le_sig : place = 0 ∨ 2 ^ (23 + shift) ≤ sig
  number : q = signFactor (fields .double d).sign * (sig * 2 ^ ((place : ℤ) - 149 - shift))
  narrowed : narrow d = BitVec.ofNat 32 ((fields .double d).sign.toNat * 2 ^ 31 +
    min (place * 2 ^ 23 + roundOff sig shift) 0x7F800000)

/-- The magnitude of a narrowed double is the rounded one, or infinity's where that is smaller. -/
theorem narrowMagnitude_eq_min (e m : Nat) :
    narrowMagnitude e m =
      min (narrowBase (effectiveExponent e) + roundOff (significand e m) (narrowShift (effectiveExponent e)))
        0x7F800000 := by
  simp only [narrowMagnitude]
  split <;> omega

/-- Every double that denotes a number is rounded at some scale: for exponents from 897 the place follows the exponent, and below
them it is the subnormals' place 0 and the shift grows. -/
theorem roundsAt_of_denote {d : BitVec 64} {q : ℚ} (h : denote .double d = .number q) :
    ∃ sig shift place, RoundsAt d q sig shift place := by
  have hfin := finite_of_denote_number h
  have hnarrow := narrow_of_finite hfin
  rw [narrowMagnitude_eq_min] at hnarrow
  rw [denote, denote_double_finite _ _ _ hfin, Denoted.number.injEq] at h
  have hm : (fields .double d).mantissa.toNat < 2 ^ 52 := (fields .double d).mantissa.isLt
  generalize (fields .double d).exponent.toNat = e at *
  generalize (fields .double d).mantissa.toNat = m at *
  have hsig : significand e m < 2 ^ 53 := by
    unfold significand
    split <;> omega
  by_cases he : 897 ≤ e
  · have heff : effectiveExponent e = e := if_neg (by omega)
    have hshift : narrowShift e = 29 := if_pos he
    have hbase : narrowBase e = (e - 897) * 2 ^ 23 := if_pos he
    have hlead : significand e m = 2 ^ 52 + m := if_neg (by omega)
    rw [heff, hshift, hbase] at hnarrow
    refine ⟨significand e m, 29, e - 897, by decide, hsig, .inr (by omega), ?_, hnarrow⟩
    have hscale : ((e - 897 : ℕ) : ℤ) - 149 - (29 : ℕ) = (e : ℤ) - 1075 := by omega
    rw [← h, heff, hscale]
  · have heff : 1 ≤ effectiveExponent e ∧ effectiveExponent e < 897 := by
      unfold effectiveExponent
      split <;> omega
    have hshift : narrowShift (effectiveExponent e) = 926 - effectiveExponent e := if_neg (by omega)
    have hbase : narrowBase (effectiveExponent e) = 0 * 2 ^ 23 := if_neg (by omega)
    rw [hshift, hbase] at hnarrow
    refine ⟨significand e m, 926 - effectiveExponent e, 0, by omega, ?_, .inl rfl, ?_, hnarrow⟩
    · exact hsig.trans_le (Nat.pow_le_pow_right (by decide) (by omega))
    · have hscale : ((0 : ℕ) : ℤ) - 149 - ((926 - effectiveExponent e : ℕ) : ℤ) = (effectiveExponent e : ℤ) - 1075 := by
        omega
      rw [← h, hscale]

/-- The factor of a sign is 1 in magnitude. -/
theorem abs_signFactor (s : BitVec 1) : |signFactor s| = 1 := by
  unfold signFactor
  split <;> simp

namespace RoundsAt

variable {d : BitVec 64} {q : ℚ} {sig shift place : Nat}

/-- The magnitude of the number. -/
theorem abs_eq (h : RoundsAt d q sig shift place) : |q| = sig * 2 ^ ((place : ℤ) - 149 - shift) := by
  rw [h.number, abs_mul, abs_signFactor, one_mul, abs_of_nonneg (by positivity)]

/-- The magnitude of the number, with all powers of two on natural exponents. -/
theorem abs_mul_eq (h : RoundsAt d q sig shift place) : |q| * 2 ^ (149 + shift) = ((sig * 2 ^ place : ℕ) : ℚ) := by
  rw [h.abs_eq, Nat.cast_mul, Nat.cast_pow, Nat.cast_ofNat, mul_assoc, ← zpow_natCast, ← zpow_natCast,
    ← zpow_add₀ two_ne_zero]
  congr 2
  push_cast
  ring

/-- The rounded quotient is at most `2 ^ 24`. -/
theorem roundOff_le (h : RoundsAt d q sig shift place) : roundOff sig shift ≤ 2 ^ 24 :=
  Machine.roundOff_le 24 h.shift_pos h.sig_lt

/-- Above the subnormals' place the rounded quotient has its leading 1. -/
theorem le_roundOff (h : RoundsAt d q sig shift place) : place = 0 ∨ 2 ^ 23 ≤ roundOff sig shift :=
  h.le_sig.imp_right (Machine.le_roundOff 23)

/-- A bound from below on the magnitude, as a bound on naturals. -/
theorem le_abs_iff (h : RoundsAt d q sig shift place) {x : ℚ} {n : Nat} (hx : x * 2 ^ (149 + shift) = n) :
    x ≤ |q| ↔ n ≤ sig * 2 ^ place := by
  have hpos : (0 : ℚ) < 2 ^ (149 + shift) := by positivity
  rw [← mul_le_mul_iff_left₀ hpos, hx, h.abs_mul_eq, Nat.cast_le]

/-- A bound from above on the magnitude, as a bound on naturals. -/
theorem abs_le_iff (h : RoundsAt d q sig shift place) {x : ℚ} {n : Nat} (hx : x * 2 ^ (149 + shift) = n) :
    |q| ≤ x ↔ sig * 2 ^ place ≤ n := by
  have hpos : (0 : ℚ) < 2 ^ (149 + shift) := by positivity
  rw [← mul_le_mul_iff_left₀ hpos, hx, h.abs_mul_eq, Nat.cast_le]

/-- The rounded magnitude overflows exactly from the midpoint above the largest single (41_encoder.md R129): at place 253 that is
the midpoint below the quotient `2 ^ 24`, and every other place lies wholly on one side. -/
theorem overflows_iff (h : RoundsAt d q sig shift place) :
    255 * 2 ^ 23 ≤ place * 2 ^ 23 + roundOff sig shift ↔ 2 ^ 128 - 2 ^ 103 ≤ |q| := by
  have hmid : ((2 : ℚ) ^ 128 - 2 ^ 103) * 2 ^ (149 + shift) = (((2 ^ 25 - 1) * 2 ^ (252 + shift) : ℕ) : ℚ) := by
    push_cast
    ring
  have hR := h.roundOff_le
  rw [h.le_abs_iff hmid]
  rcases lt_trichotomy place 253 with hplace | rfl | hplace
  · have hbelow : sig * 2 ^ place < (2 ^ 25 - 1) * 2 ^ (252 + shift) := by
      calc sig * 2 ^ place ≤ sig * 2 ^ 252 := Nat.mul_le_mul_left _ (Nat.pow_le_pow_right (by decide) (by omega))
        _ < 2 ^ (24 + shift) * 2 ^ 252 := Nat.mul_lt_mul_of_pos_right h.sig_lt (by positivity)
        _ = 2 ^ 24 * 2 ^ (252 + shift) := by ring
        _ ≤ (2 ^ 25 - 1) * 2 ^ (252 + shift) := Nat.mul_le_mul_right _ (by decide)
    exact iff_of_false (by omega) (by omega)
  · have hpow : (2 ^ 25 - 1) * 2 ^ (252 + shift) = (2 * (2 ^ 24 - 1) + 1) * 2 ^ (shift - 1) * 2 ^ 253 := by
      rw [Nat.mul_assoc, ← pow_add]
      congr 2
      have := h.shift_pos
      omega
    have hstep := succ_le_roundOff_iff (sig := sig) (2 ^ 24 - 1) h.shift_pos
    rw [hpow, Nat.mul_le_mul_right_iff (by positivity)]
    omega
  · have hlead := h.le_sig.resolve_left (by omega)
    have habove : (2 ^ 25 - 1) * 2 ^ (252 + shift) ≤ sig * 2 ^ place := by
      calc (2 ^ 25 - 1) * 2 ^ (252 + shift) ≤ 2 ^ 25 * 2 ^ (252 + shift) := Nat.mul_le_mul_right _ (by decide)
        _ = 2 ^ (23 + shift) * 2 ^ 254 := by ring
        _ ≤ sig * 2 ^ place := Nat.mul_le_mul hlead (Nat.pow_le_pow_right (by decide) hplace)
    have hRlead := h.le_roundOff.resolve_left (by omega)
    exact iff_of_true (by omega) habove

end RoundsAt

/-- Settles O30: the sign of the infinity is that of the number, which is not zero. -/
theorem narrowOverflowsToInfinity : Obligations.NarrowOverflowsToInfinity := by
  intro d q hd hq
  obtain ⟨sig, shift, place, h⟩ := roundsAt_of_denote hd
  have hover := h.overflows_iff.mpr hq
  have hmag : 0 < (sig : ℚ) * 2 ^ ((place : ℤ) - 149 - shift) := by
    rw [← h.abs_eq]
    exact lt_of_lt_of_le (by norm_num) hq
  rw [h.narrowed, Nat.min_eq_right (by omega)]
  rcases BitVec.eq_zero_or_eq_one (fields .double d).sign with hs | hs
  · have hpos : ¬ q < 0 := by
      rw [h.number, hs, signFactor, if_neg (by decide), one_mul]
      exact hmag.not_gt
    rw [if_neg hpos, hs]
    rfl
  · have hneg : q < 0 := by
      rw [h.number, hs, signFactor, if_pos rfl, neg_one_mul]
      exact neg_neg_of_pos hmag
    rw [if_pos hneg, hs]
    rfl

namespace RoundsAt

variable {d : BitVec 64} {q : ℚ} {sig shift place : Nat}

/-- A magnitude below the smallest subnormal stands at place 0. -/
theorem place_eq_zero (h : RoundsAt d q sig shift place) (hq : |q| < 2 ^ (-149 : ℤ)) : place = 0 := by
  have hlt : sig * 2 ^ place < 2 ^ shift := (lt_iff_lt_of_le_iff_le (h.le_abs_iff (unit_scaled shift))).mp hq
  refine h.le_sig.resolve_right fun hlead => ?_
  have hle : 2 ^ shift ≤ sig * 2 ^ place := by
    calc 2 ^ shift ≤ 2 ^ (23 + shift) := Nat.pow_le_pow_right (by decide) (by omega)
      _ ≤ sig * 2 ^ place := hlead.trans (Nat.le_mul_of_pos_right _ (Nat.two_pow_pos _))
  omega

/-- At most half the smallest subnormal rounds to 0. -/
theorem roundOff_eq_zero (h : RoundsAt d q sig shift 0) (hq : |q| ≤ 2 ^ (-150 : ℤ)) : roundOff sig shift = 0 := by
  have hpos := h.shift_pos
  have hle : sig * 2 ^ 0 ≤ 2 ^ (shift - 1) := (h.abs_le_iff (half_scaled hpos)).mp hq
  have hstep := succ_le_roundOff_iff (sig := sig) 0 hpos
  omega

/-- Between half the smallest subnormal and the smallest subnormal, the quotient is 1. -/
theorem roundOff_eq_one (h : RoundsAt d q sig shift 0) (hhalf : 2 ^ (-150 : ℤ) < |q|) (hunit : |q| < 2 ^ (-149 : ℤ)) :
    roundOff sig shift = 1 := by
  have hpos := h.shift_pos
  have hgt : 2 ^ (shift - 1) < sig * 2 ^ 0 := (lt_iff_lt_of_le_iff_le (h.abs_le_iff (half_scaled hpos))).mp hhalf
  have hlt : sig * 2 ^ 0 < 2 ^ shift := (lt_iff_lt_of_le_iff_le (h.le_abs_iff (unit_scaled shift))).mp hunit
  have hstep := succ_le_roundOff_iff (sig := sig) 0 hpos
  have hle : roundOff sig shift ≤ 2 ^ 0 := Machine.roundOff_le 0 hpos (by rwa [Nat.zero_add, ← Nat.mul_one sig])
  omega

end RoundsAt

/-- Settles O31. -/
theorem narrowUnderflowsGradually : Obligations.NarrowUnderflowsGradually := by
  intro d q hd
  obtain ⟨sig, shift, place, h⟩ := roundsAt_of_denote hd
  constructor
  · intro hq
    obtain rfl := h.place_eq_zero (hq.trans_lt (by norm_num))
    rw [h.narrowed, h.roundOff_eq_zero hq]
    rcases BitVec.eq_zero_or_eq_one (fields .double d).sign with hs | hs <;> rw [hs] <;> rfl
  · intro hhalf hunit
    obtain rfl := h.place_eq_zero hunit
    rw [h.narrowed, h.roundOff_eq_one hhalf hunit]
    rcases BitVec.eq_zero_or_eq_one (fields .double d).sign with hs | hs <;> rw [hs] <;> rfl

end Sys2Proof.Machine

namespace Sys2Proof.Machine

/-! ### Rounding to nearest (41_encoder.md R127) -/

/-- The fields of a single given by its sign and its 31-bit magnitude. -/
theorem fields_ofNat_magnitude (s : BitVec 1) {mag : Nat} (h : mag < 2 ^ 31) :
    (fields .single (BitVec.ofNat 32 (s.toNat * 2 ^ 31 + mag))).sign = s ∧
    (fields .single (BitVec.ofNat 32 (s.toNat * 2 ^ 31 + mag))).exponent.toNat = mag / 2 ^ 23 ∧
    (fields .single (BitVec.ofNat 32 (s.toNat * 2 ^ 31 + mag))).mantissa.toNat = mag % 2 ^ 23 := by
  have hs : s.toNat < 2 ^ 1 := s.isLt
  have hraw : (BitVec.ofNat 32 (s.toNat * 2 ^ 31 + mag)).toNat = s.toNat * 2 ^ 31 + mag :=
    toNat_ofNat_of_lt (by omega)
  have hsign := fields_sign_toNat .single (BitVec.ofNat 32 (s.toNat * 2 ^ 31 + mag))
  have hexp := fields_exponent_toNat .single (BitVec.ofNat 32 (s.toNat * 2 ^ 31 + mag))
  have hman := fields_mantissa_toNat .single (BitVec.ofNat 32 (s.toNat * 2 ^ 31 + mag))
  rw [hraw] at hsign hexp hman
  simp only [widthOf, manWidthOf, expWidthOf] at hsign hexp hman
  exact ⟨BitVec.eq_of_toNat_eq (by omega), by omega, by omega⟩

/-- Counting `n` units from the base of a place gives the magnitude of the single that denotes `n` of them: below the leading 1 a
subnormal, up to twice it a normal of the place, and at twice it the first normal of the next place. -/
theorem denote_single_at_place {f : BitVec 32} {n place : Nat}
    (hfin : place * 2 ^ 23 + n < 255 * 2 ^ 23)
    (hE : (fields .single f).exponent.toNat = (place * 2 ^ 23 + n) / 2 ^ 23)
    (hM : (fields .single f).mantissa.toNat = (place * 2 ^ 23 + n) % 2 ^ 23)
    (hlead : place = 0 ∨ 2 ^ 23 ≤ n) (hn : n ≤ 2 ^ 24) :
    denote .single f = .number (signFactor (fields .single f).sign * (n * 2 ^ ((place : ℤ) - 149))) := by
  have hdenote := denote_single_finite (fields .single f).sign (fields .single f).exponent (fields .single f).mantissa
    (by omega)
  refine hdenote.trans (congrArg (fun x => Denoted.number (signFactor (fields .single f).sign * x)) ?_)
  rw [hE, hM]
  rcases lt_trichotomy n (2 ^ 24) with hlt | rfl | hgt
  · by_cases hsub : n < 2 ^ 23
    · obtain rfl : place = 0 := by omega
      have hE0 : (0 * 2 ^ 23 + n) / 2 ^ 23 = 0 := by omega
      have hM0 : (0 * 2 ^ 23 + n) % 2 ^ 23 = n := by omega
      rw [hE0, hM0, if_pos rfl, effectiveExponent, if_pos rfl]
      norm_num
    · have hE1 : (place * 2 ^ 23 + n) / 2 ^ 23 = place + 1 := by omega
      have hM1 : 2 ^ 23 + (place * 2 ^ 23 + n) % 2 ^ 23 = n := by omega
      have hscale : ((place + 1 : ℕ) : ℤ) - 150 = (place : ℤ) - 149 := by omega
      rw [hE1, if_neg (by omega), hM1, effectiveExponent, if_neg (by omega), hscale]
  · have hE2 : (place * 2 ^ 23 + 2 ^ 24) / 2 ^ 23 = place + 2 := by omega
    have hM2 : (place * 2 ^ 23 + 2 ^ 24) % 2 ^ 23 = 0 := by omega
    have hscale : ((place + 2 : ℕ) : ℤ) - 150 = ((place : ℤ) - 149) + 1 := by push_cast; ring
    rw [hE2, hM2, if_neg (by omega), effectiveExponent, if_neg (by omega), hscale, zpow_add_one₀ two_ne_zero]
    push_cast
    ring
  · omega

/-- The magnitude of any finite single: fewer than `2 ^ 24` units of some place. -/
theorem abs_of_denote_single {f : BitVec 32} {r : ℚ} (h : denote .single f = .number r) :
    ∃ n place : Nat, n < 2 ^ 24 ∧ |r| = n * 2 ^ ((place : ℤ) - 149) := by
  have hM : (fields .single f).mantissa.toNat < 2 ^ 23 := (fields .single f).mantissa.isLt
  have hdenote := denote_single_finite (fields .single f).sign (fields .single f).exponent (fields .single f).mantissa
    (finite_of_denote_single_number h)
  have hr := Denoted.number.inj (h.symm.trans hdenote)
  generalize (fields .single f).exponent.toNat = e at hr
  generalize (fields .single f).mantissa.toNat = m at hr hM
  have heff : 1 ≤ effectiveExponent e := by
    unfold effectiveExponent
    split <;> omega
  have hscale : ((effectiveExponent e - 1 : ℕ) : ℤ) - 149 = (effectiveExponent e : ℤ) - 150 := by omega
  refine ⟨if e = 0 then m else 2 ^ 23 + m, effectiveExponent e - 1, by split <;> omega, ?_⟩
  rw [hr, abs_mul, abs_signFactor, one_mul, abs_of_nonneg (by positivity), hscale]

/-- The sign keeps differences of magnitudes. -/
theorem abs_signFactor_mul_sub (s : BitVec 1) (x y : ℚ) : |signFactor s * x - signFactor s * y| = |x - y| := by
  rw [← mul_sub, abs_mul, abs_signFactor, one_mul]

/-- Of all multiples of the unit the rounded one is nearest to the number, and of two nearest it is the even one: the naturals'
`roundOff_nearest` at the scale `c`. -/
theorem roundOff_nearest_scaled {sig k : Nat} (n : Nat) (hk : 0 < k) {c : ℚ} (hc : 0 < c) :
    |sig * c - roundOff sig k * (2 ^ k * c)| ≤ |sig * c - n * (2 ^ k * c)| ∧
    (n ≠ roundOff sig k → |sig * c - n * (2 ^ k * c)| = |sig * c - roundOff sig k * (2 ^ k * c)| →
      roundOff sig k % 2 = 0) := by
  obtain ⟨hnear, htie⟩ := roundOff_nearest sig k n hk
  have hdist (j : Nat) : |(sig : ℚ) * c - j * (2 ^ k * c)| = (((sig : ℤ) - (j * 2 ^ k : Nat)).natAbs : ℚ) * c := by
    rw [Nat.cast_natAbs, Int.cast_abs, ← mul_assoc, ← sub_mul, abs_mul, abs_of_pos hc]
    push_cast
    rfl
  rw [hdist, hdist]
  refine ⟨mul_le_mul_of_nonneg_right (Nat.cast_le.mpr hnear) hc.le, fun hne heq => htie hne ?_⟩
  exact Nat.cast_injective (R := ℚ) (mul_right_cancel₀ hc.ne' heq)

/-- One unit of a place is `2 ^ shift` of the units that the shift drops. -/
theorem place_unit_eq (shift place : Nat) :
    (2 : ℚ) ^ ((place : ℤ) - 149) = 2 ^ shift * 2 ^ ((place : ℤ) - 149 - shift) := by
  rw [← zpow_natCast, ← zpow_add₀ two_ne_zero]
  congr 1
  ring

/-- Units of a higher place are multiples of the unit. -/
theorem units_of_higher_place (n place j : Nat) :
    (n : ℚ) * 2 ^ (((place + j : ℕ) : ℤ) - 149) = ((n * 2 ^ j : ℕ) : ℚ) * 2 ^ ((place : ℤ) - 149) := by
  have hexp : ((place + j : ℕ) : ℤ) - 149 = j + ((place : ℤ) - 149) := by push_cast; ring
  rw [hexp, zpow_add₀ two_ne_zero, zpow_natCast]
  push_cast
  ring

/-- Fewer than `2 ^ 24` units of a lower place are less than `2 ^ 23` units. -/
theorem units_of_lower_place_lt {n place place' : Nat} (hn : n < 2 ^ 24) (hplace : place' < place) :
    (n : ℚ) * 2 ^ ((place' : ℤ) - 149) < ((2 ^ 23 : ℕ) : ℚ) * 2 ^ ((place : ℤ) - 149) := by
  have hn' : (n : ℚ) < 2 ^ 23 * 2 := by exact_mod_cast hn
  calc (n : ℚ) * 2 ^ ((place' : ℤ) - 149) < 2 ^ 23 * 2 * 2 ^ ((place' : ℤ) - 149) :=
        mul_lt_mul_of_pos_right hn' (by positivity)
    _ = 2 ^ 23 * 2 ^ ((place' : ℤ) - 149 + 1) := by rw [zpow_add_one₀ two_ne_zero]; ring
    _ ≤ 2 ^ 23 * 2 ^ ((place : ℤ) - 149) :=
        mul_le_mul_of_nonneg_left (zpow_le_zpow_right₀ one_le_two (by omega)) (by positivity)
    _ = ((2 ^ 23 : ℕ) : ℚ) * 2 ^ ((place : ℤ) - 149) := by push_cast; rfl

/-- No single is nearer in magnitude than the rounded one, and another one as near means that the rounded one is even. A single of
this place or a higher one is a multiple of the unit; one of a lower place lies below `2 ^ 23` units, which the number does not. -/
theorem RoundsAt.nearest {d : BitVec 64} {q : ℚ} {sig shift place n place' : Nat} (h : RoundsAt d q sig shift place)
    (hn : n < 2 ^ 24) :
    |(|q|) - roundOff sig shift * 2 ^ ((place : ℤ) - 149)| ≤ |(|q|) - n * 2 ^ ((place' : ℤ) - 149)| ∧
    ((n : ℚ) * 2 ^ ((place' : ℤ) - 149) ≠ roundOff sig shift * 2 ^ ((place : ℤ) - 149) →
      |(|q|) - n * 2 ^ ((place' : ℤ) - 149)| = |(|q|) - roundOff sig shift * 2 ^ ((place : ℤ) - 149)| →
      roundOff sig shift % 2 = 0) := by
  have hmultiple (m : Nat) := roundOff_nearest_scaled (sig := sig) m h.shift_pos
    (c := 2 ^ ((place : ℤ) - 149 - shift)) (by positivity)
  rw [← place_unit_eq, ← h.abs_eq] at hmultiple
  by_cases hplace : place ≤ place'
  · obtain ⟨j, rfl⟩ := Nat.exists_eq_add_of_le hplace
    obtain ⟨hnear, htie⟩ := hmultiple (n * 2 ^ j)
    rw [units_of_higher_place]
    exact ⟨hnear, fun hne => htie fun heq => hne (by rw [heq])⟩
  · have hlead : ((2 ^ 23 : ℕ) : ℚ) * 2 ^ ((place : ℤ) - 149) ≤ |q| := by
      have hsig := h.le_sig.resolve_left (by omega)
      rw [pow_add] at hsig
      rw [h.abs_eq, place_unit_eq shift, ← mul_assoc]
      exact mul_le_mul_of_nonneg_right (by exact_mod_cast hsig) (by positivity)
    obtain ⟨hnear, -⟩ := hmultiple (2 ^ 23)
    rw [abs_of_nonneg (sub_nonneg.mpr hlead)] at hnear
    have hbelow := units_of_lower_place_lt hn (not_le.mp hplace)
    have hfar := (hnear.trans_lt (sub_lt_sub_left hbelow _)).trans_le (le_abs_self _)
    exact ⟨hfar.le, fun _ heq => absurd heq hfar.ne'⟩

/-- A double below the overflow midpoint narrows to the single of its sign whose magnitude is the rounded one. -/
theorem narrow_of_lt_overflow {d : BitVec 64} {q : ℚ} {sig shift place : Nat} (h : RoundsAt d q sig shift place)
    (hq : |q| < 2 ^ 128 - 2 ^ 103) :
    (fields .single (narrow d)).sign = (fields .double d).sign ∧
    denote .single (narrow d) =
      .number (signFactor (fields .double d).sign * (roundOff sig shift * 2 ^ ((place : ℤ) - 149))) ∧
    (narrow d).getLsbD 0 = decide (roundOff sig shift % 2 = 1) := by
  have hfin := (lt_iff_lt_of_le_iff_le h.overflows_iff.symm).mp hq
  have hnarrow := h.narrowed
  rw [Nat.min_eq_left (by omega)] at hnarrow
  obtain ⟨hsign, hexp, hman⟩ := fields_ofNat_magnitude (fields .double d).sign
    (mag := place * 2 ^ 23 + roundOff sig shift) (by omega)
  rw [← hnarrow] at hsign hexp hman
  refine ⟨hsign, ?_, ?_⟩
  · rw [denote_single_at_place hfin hexp hman h.le_roundOff h.roundOff_le, hsign]
  · have hparity : ((fields .double d).sign.toNat * 2 ^ 31 + (place * 2 ^ 23 + roundOff sig shift)) % 2 =
        roundOff sig shift % 2 := by omega
    rw [hnarrow, BitVec.getLsbD_ofNat, Nat.testBit_zero, hparity]
    rfl

/-- A number as far from `q` as the one of `q`'s sign and magnitude `b`, and not that one, has another magnitude: of equal
magnitude and the other sign it is farther, unless both are zero. -/
theorem abs_ne_of_tie {s : BitVec 1} {a b r' : ℚ} (ha : 0 ≤ a) (hb : 0 ≤ b) (hzero : |a - b| ≤ a)
    (hne : r' ≠ signFactor s * b) (heq : |signFactor s * a - r'| = |a - b|) : |r'| ≠ b := by
  intro habs
  have hsame : |r'| = |signFactor s * b| := by rw [habs, abs_mul, abs_signFactor, one_mul, abs_of_nonneg hb]
  obtain h | h := abs_eq_abs.mp hsame
  · exact hne h
  · have hfar : |signFactor s * a - r'| = a + b := by
      rw [h, sub_neg_eq_add, ← mul_add, abs_mul, abs_signFactor, one_mul, abs_of_nonneg (add_nonneg ha hb)]
    have hb0 : b = 0 := by linarith
    exact hne (by rw [h, hb0, mul_zero, neg_zero])

/-- Settles O29: of the two signs the number's own is nearer, so distances of numbers come down to distances of magnitudes. -/
theorem narrowRoundsToNearestEven : Obligations.NarrowRoundsToNearestEven := by
  intro d q hd hq
  obtain ⟨sig, shift, place, h⟩ := roundsAt_of_denote hd
  obtain ⟨hsign, hdenote, hbit⟩ := narrow_of_lt_overflow h hq
  have hqsign : q = signFactor (fields .double d).sign * |q| := by rw [h.abs_eq]; exact h.number
  refine ⟨hsign, _, hdenote, fun f r' hf => ?_⟩
  obtain ⟨n, place', hn, hr'⟩ := abs_of_denote_single hf
  obtain ⟨hnear, htie⟩ := h.nearest (place' := place') hn
  obtain ⟨hzero, -⟩ := h.nearest (n := 0) (place' := 0) (by decide)
  rw [← hr'] at hnear htie
  have hb : 0 ≤ (roundOff sig shift : ℚ) * 2 ^ ((place : ℤ) - 149) := by positivity
  generalize (roundOff sig shift : ℚ) * 2 ^ ((place : ℤ) - 149) = b at *
  have hdist : |q - signFactor (fields .double d).sign * b| = |(|q|) - b| := by
    conv_lhs => rw [hqsign]
    exact abs_signFactor_mul_sub _ _ _
  have hmag : |(|q|) - (|r'|)| ≤ |q - r'| := abs_abs_sub_abs_le q r'
  rw [hdist]
  refine ⟨hnear.trans hmag, fun hne heq => ?_⟩
  have hother : |r'| ≠ b := by
    refine abs_ne_of_tie (abs_nonneg q) hb (hzero.trans (by simp)) hne ?_
    rw [← hqsign, heq]
  have heven := htie hother (le_antisymm (hmag.trans_eq heq) hnear)
  rw [hbit, heven]
  rfl

end Sys2Proof.Machine
